-- ==== Sys2Proof/Word.lean ====
section
/-! DEFINITION. The word types of the machine (00_scope.md R4, R6): every quantity is unsigned. -/

namespace Sys2Proof

/-- One general register, timer, RPL register, immediate or memory cell: 8 bits (R4 `XLEN`, R40). -/
abbrev Byte := BitVec 8

/-- The width of `PC`, `I`, a call-stack slot and an instruction word: 16 bits (R4, R70). -/
abbrev Word16 := BitVec 16

/-- The address field of an instruction: 12 bits (R71 `addr`). -/
abbrev Addr12 := BitVec 12

/-- The `nib` field of an instruction: 4 bits (R71). -/
abbrev Nibble := BitVec 4

/-- The index of one of the sixteen general registers, and of one of the sixteen keys (R10, R22). -/
abbrev RegIndex := Fin 16

end Sys2Proof
end

