-- ==== Sys2Proof/Syntax.lean ====
section
/-! DEFINITION. The 44 operations (00_scope.md R1), one constructor per row of spec/opcode_table.json, each with
"only the operand fields it needs" (30_encoding.md R72), in the table's order. -/

namespace Sys2Proof

inductive Instr where
  -- Family 0 (R75)
  | scd (nib : Nibble)
  | cls
  | ret
  | scr
  | scl
  | exit
  | low
  | high
  | sys (addr : Addr12)
  -- Families with one operation, and family 8 (R76, R77)
  | jump (addr : Addr12)
  | call (addr : Addr12)
  | skipEqImm (x : RegIndex) (imm : Byte)
  | skipNeqImm (x : RegIndex) (imm : Byte)
  | skipEqReg (x y : RegIndex)
  | loadImm (x : RegIndex) (imm : Byte)
  | addImm (x : RegIndex) (imm : Byte)
  | loadReg (x y : RegIndex)
  | or (x y : RegIndex)
  | and (x y : RegIndex)
  | xor (x y : RegIndex)
  | addReg (x y : RegIndex)
  | sub (x y : RegIndex)
  | shr (x : RegIndex)
  | subNeg (x y : RegIndex)
  | shl (x : RegIndex)
  | skipNeqReg (x y : RegIndex)
  | loadAddr (addr : Addr12)
  | jumpAddrPlusV0 (addr : Addr12)
  | randModImm (x : RegIndex) (imm : Byte)
  | draw (x y : RegIndex) (nib : Nibble)
  -- Family E (R78)
  | skipKey (x : RegIndex)
  | skipNotKey (x : RegIndex)
  -- Family F (R79)
  | loadRegDelay (x : RegIndex)
  | waitKey (x : RegIndex)
  | loadDelayReg (x : RegIndex)
  | loadSoundReg (x : RegIndex)
  | addAddrReg (x : RegIndex)
  | loadAddrDigit (x : RegIndex)
  | loadAddrBigDigit (x : RegIndex)
  | memStoreBcd (x : RegIndex)
  | memStoreRegs (x : RegIndex)
  | memLoadRegs (x : RegIndex)
  | rplStoreRegs (x : RegIndex)
  | rplLoadRegs (x : RegIndex)
deriving DecidableEq, Repr

/-- The operation's name, as spec/opcode_table.json spells it (R83). -/
def Instr.mnemonic : Instr → String
  | .scd _ => "Scd"
  | .cls => "Cls"
  | .ret => "Ret"
  | .scr => "Scr"
  | .scl => "Scl"
  | .exit => "Exit"
  | .low => "Low"
  | .high => "High"
  | .sys _ => "Sys"
  | .jump _ => "Jump"
  | .call _ => "Call"
  | .skipEqImm _ _ => "SkipEqImm"
  | .skipNeqImm _ _ => "SkipNeqImm"
  | .skipEqReg _ _ => "SkipEqReg"
  | .loadImm _ _ => "LoadImm"
  | .addImm _ _ => "AddImm"
  | .loadReg _ _ => "LoadReg"
  | .or _ _ => "Or"
  | .and _ _ => "And"
  | .xor _ _ => "Xor"
  | .addReg _ _ => "AddReg"
  | .sub _ _ => "Sub"
  | .shr _ => "Shr"
  | .subNeg _ _ => "SubNeg"
  | .shl _ => "Shl"
  | .skipNeqReg _ _ => "SkipNeqReg"
  | .loadAddr _ => "LoadAddr"
  | .jumpAddrPlusV0 _ => "JumpAddrPlusV0"
  | .randModImm _ _ => "RandModImm"
  | .draw _ _ _ => "Draw"
  | .skipKey _ => "SkipKey"
  | .skipNotKey _ => "SkipNotKey"
  | .loadRegDelay _ => "LoadRegDelay"
  | .waitKey _ => "WaitKey"
  | .loadDelayReg _ => "LoadDelayReg"
  | .loadSoundReg _ => "LoadSoundReg"
  | .addAddrReg _ => "AddAddrReg"
  | .loadAddrDigit _ => "LoadAddrDigit"
  | .loadAddrBigDigit _ => "LoadAddrBigDigit"
  | .memStoreBcd _ => "MemStoreBcd"
  | .memStoreRegs _ => "MemStoreRegs"
  | .memLoadRegs _ => "MemLoadRegs"
  | .rplStoreRegs _ => "RplStoreRegs"
  | .rplLoadRegs _ => "RplLoadRegs"

end Sys2Proof
end

