-- ==== Sys2Proof/WellFormed.lean ====
section
/-! DEFINITION. Which instructions have an encoding (30_encoding.md R84). The types bound every field, so one
check remains: a `Sys` whose address spells a special form of family 0 cannot be encoded. -/

namespace Sys2Proof

/-- The low twelve bits of a special form of family 0: `0C0`..`0CF`, `0E0`, `0EE`, `0FB`..`0FF` (R75, R84). -/
def isSpecialAddr (addr : Addr12) : Bool :=
  addr.toNat / 16 == 0x0C || addr.toNat == 0x0E0 || addr.toNat == 0x0EE ||
    (0x0FB ≤ addr.toNat && addr.toNat ≤ 0x0FF)

/-- `true` iff the operation with these operands has an encoding (R84). -/
def Instr.wellFormed : Instr → Bool
  | .sys addr => !isSpecialAddr addr
  | _ => true

/-- The instruction can be encoded (R84). -/
abbrev Instr.WellFormed (i : Instr) : Prop := i.wellFormed = true

end Sys2Proof
end

