-- ==== Sys2Proof/Decode.lean ====
section
/-! DEFINITION. The decoder (30_encoding.md R70–R82), total on all words and all byte lists, the encoder (R84), and
the opcode table as data (spec/opcode_table.json, first match wins). Forty of the forty-four patterns are the
spec's own, from general knowledge (R82, 92 D2; log entry 7). -/

namespace Sys2Proof

/-! ## Fields (R71) -/

/-- `op`, bits 15–12. -/
def opField (w : Word16) : Nibble := w.extractLsb' 12 4

/-- `x`, bits 11–8, as a register index. -/
def xField (w : Word16) : RegIndex := (w.extractLsb' 8 4).toFin

/-- `y`, bits 7–4, as a register index. -/
def yField (w : Word16) : RegIndex := (w.extractLsb' 4 4).toFin

/-- `nib`, bits 3–0. -/
def nibField (w : Word16) : Nibble := w.extractLsb' 0 4

/-- `imm`, bits 7–0. -/
def immField (w : Word16) : Byte := w.extractLsb' 0 8

/-- `addr`, bits 11–0. -/
def addrField (w : Word16) : Addr12 := w.extractLsb' 0 12

/-! ## The decoder -/

/-- Why no instruction is read: the five kinds of invalid word of R80, and a list too short to hold a word. -/
inductive Reject where
  /-- `5xyN` with `N ≠ 0` (R76, R80). -/
  | family5LowNibble
  /-- `8xyN` with `N` one of 8–D, F (R77, R80). -/
  | family8Function
  /-- `9xyN` with `N ≠ 0` (R76, R80). -/
  | family9LowNibble
  /-- `ExNN` with `NN` neither `9E` nor `A1` (R78, R80). -/
  | familyEFunction
  /-- `FxNN` with `NN` none of the twelve function bytes (R79, R80). -/
  | familyFFunction
  /-- Fewer than the two bytes of an instruction (R70). -/
  | tooFewBytes
deriving DecidableEq, Repr

/-- Family `0x0***`, tested in the order of R75; every word not a special form is `Sys`. -/
def decodeFamily0 (w : Word16) : Instr :=
  if w &&& 0xFFF0 = 0x00C0 then .scd (nibField w)
  else if w = 0x00E0 then .cls
  else if w = 0x00EE then .ret
  else if w = 0x00FB then .scr
  else if w = 0x00FC then .scl
  else if w = 0x00FD then .exit
  else if w = 0x00FE then .low
  else if w = 0x00FF then .high
  else .sys (addrField w)

/-- Family `0x8***`, selected by `nib` (R77). -/
def decodeFamily8 (w : Word16) : Except Reject Instr :=
  match (nibField w).toNat with
  | 0x0 => .ok (.loadReg (xField w) (yField w))
  | 0x1 => .ok (.or (xField w) (yField w))
  | 0x2 => .ok (.and (xField w) (yField w))
  | 0x3 => .ok (.xor (xField w) (yField w))
  | 0x4 => .ok (.addReg (xField w) (yField w))
  | 0x5 => .ok (.sub (xField w) (yField w))
  | 0x6 => .ok (.shr (xField w))
  | 0x7 => .ok (.subNeg (xField w) (yField w))
  | 0xE => .ok (.shl (xField w))
  | _ => .error .family8Function

/-- Family `0xE***`, selected by `imm` (R78). -/
def decodeFamilyE (w : Word16) : Except Reject Instr :=
  match (immField w).toNat with
  | 0x9E => .ok (.skipKey (xField w))
  | 0xA1 => .ok (.skipNotKey (xField w))
  | _ => .error .familyEFunction

/-- Family `0xF***`, selected by `imm` (R79). -/
def decodeFamilyF (w : Word16) : Except Reject Instr :=
  match (immField w).toNat with
  | 0x07 => .ok (.loadRegDelay (xField w))
  | 0x0A => .ok (.waitKey (xField w))
  | 0x15 => .ok (.loadDelayReg (xField w))
  | 0x18 => .ok (.loadSoundReg (xField w))
  | 0x1E => .ok (.addAddrReg (xField w))
  | 0x29 => .ok (.loadAddrDigit (xField w))
  | 0x30 => .ok (.loadAddrBigDigit (xField w))
  | 0x33 => .ok (.memStoreBcd (xField w))
  | 0x55 => .ok (.memStoreRegs (xField w))
  | 0x65 => .ok (.memLoadRegs (xField w))
  | 0x75 => .ok (.rplStoreRegs (xField w))
  | 0x85 => .ok (.rplLoadRegs (xField w))
  | _ => .error .familyFFunction

/-- The decoder with its reason for every refusal: classification by the high nibble, then by family (R74–R79). -/
def decodeWord (w : Word16) : Except Reject Instr :=
  match (opField w).toNat with
  | 0x0 => .ok (decodeFamily0 w)
  | 0x1 => .ok (.jump (addrField w))
  | 0x2 => .ok (.call (addrField w))
  | 0x3 => .ok (.skipEqImm (xField w) (immField w))
  | 0x4 => .ok (.skipNeqImm (xField w) (immField w))
  | 0x5 => if nibField w = 0 then .ok (.skipEqReg (xField w) (yField w)) else .error .family5LowNibble
  | 0x6 => .ok (.loadImm (xField w) (immField w))
  | 0x7 => .ok (.addImm (xField w) (immField w))
  | 0x8 => decodeFamily8 w
  | 0x9 => if nibField w = 0 then .ok (.skipNeqReg (xField w) (yField w)) else .error .family9LowNibble
  | 0xA => .ok (.loadAddr (addrField w))
  | 0xB => .ok (.jumpAddrPlusV0 (addrField w))
  | 0xC => .ok (.randModImm (xField w) (immField w))
  | 0xD => .ok (.draw (xField w) (yField w) (nibField w))
  | 0xE => decodeFamilyE w
  | _ => decodeFamilyF w

/-- `decode(instruction: u16) -> Option<Operation>`: pure and total, it depends on the word alone (R73). -/
def decode (w : Word16) : Option Instr :=
  match decodeWord w with
  | .ok i => some i
  | .error _ => none

/-- Two bytes as an instruction word: the byte at the lower address is bits 15–8 (R46, R49). -/
def joinBytes (hi lo : Byte) : Word16 := hi ++ lo

/-- Decoding from a byte list, as a disassembler does over a raw image: the instruction and the bytes after it
(R70, R73, R243). -/
def decodeBytes : List Byte → Except Reject (Instr × List Byte)
  | hi :: lo :: rest =>
    match decodeWord (joinBytes hi lo) with
    | .ok i => .ok (i, rest)
    | .error r => .error r
  | _ => .error .tooFewBytes

/-! ## The encoder (R84) -/

/-- A register index as the four bits of a field (R71). -/
def regBits (x : RegIndex) : BitVec 4 := BitVec.ofFin x

/-- `op a a a` (R72, format `ADDR`). -/
def formAddr (op : Nibble) (addr : Addr12) : Word16 := op ++ addr

/-- `op x i i` (R72, formats `XIMM` and `X`). -/
def formXImm (op : Nibble) (x : RegIndex) (imm : Byte) : Word16 := (op ++ regBits x) ++ imm

/-- `op x y n` (R72, formats `XY` and `XYN`). -/
def formXYN (op : Nibble) (x y : RegIndex) (nib : Nibble) : Word16 := ((op ++ regBits x) ++ regBits y) ++ nib

/-- The word of an instruction (R84). `Shr` and `Shl` take 0 in the `y` field, the canonical encoding. -/
def encode : Instr → Word16
  | .scd nib => (0x00C : BitVec 12) ++ nib
  | .cls => 0x00E0
  | .ret => 0x00EE
  | .scr => 0x00FB
  | .scl => 0x00FC
  | .exit => 0x00FD
  | .low => 0x00FE
  | .high => 0x00FF
  | .sys addr => formAddr 0x0 addr
  | .jump addr => formAddr 0x1 addr
  | .call addr => formAddr 0x2 addr
  | .skipEqImm x imm => formXImm 0x3 x imm
  | .skipNeqImm x imm => formXImm 0x4 x imm
  | .skipEqReg x y => formXYN 0x5 x y 0x0
  | .loadImm x imm => formXImm 0x6 x imm
  | .addImm x imm => formXImm 0x7 x imm
  | .loadReg x y => formXYN 0x8 x y 0x0
  | .or x y => formXYN 0x8 x y 0x1
  | .and x y => formXYN 0x8 x y 0x2
  | .xor x y => formXYN 0x8 x y 0x3
  | .addReg x y => formXYN 0x8 x y 0x4
  | .sub x y => formXYN 0x8 x y 0x5
  | .shr x => formXYN 0x8 x 0 0x6
  | .subNeg x y => formXYN 0x8 x y 0x7
  | .shl x => formXYN 0x8 x 0 0xE
  | .skipNeqReg x y => formXYN 0x9 x y 0x0
  | .loadAddr addr => formAddr 0xA addr
  | .jumpAddrPlusV0 addr => formAddr 0xB addr
  | .randModImm x imm => formXImm 0xC x imm
  | .draw x y nib => formXYN 0xD x y nib
  | .skipKey x => formXImm 0xE x 0x9E
  | .skipNotKey x => formXImm 0xE x 0xA1
  | .loadRegDelay x => formXImm 0xF x 0x07
  | .waitKey x => formXImm 0xF x 0x0A
  | .loadDelayReg x => formXImm 0xF x 0x15
  | .loadSoundReg x => formXImm 0xF x 0x18
  | .addAddrReg x => formXImm 0xF x 0x1E
  | .loadAddrDigit x => formXImm 0xF x 0x29
  | .loadAddrBigDigit x => formXImm 0xF x 0x30
  | .memStoreBcd x => formXImm 0xF x 0x33
  | .memStoreRegs x => formXImm 0xF x 0x55
  | .memLoadRegs x => formXImm 0xF x 0x65
  | .rplStoreRegs x => formXImm 0xF x 0x75
  | .rplLoadRegs x => formXImm 0xF x 0x85

/-- The high byte of a word, stored at the lower address (R49). -/
def highByte (w : Word16) : Byte := w.extractLsb' 8 8

/-- The low byte of a word, stored at the higher address (R49). -/
def lowByte (w : Word16) : Byte := w.extractLsb' 0 8

/-- An instruction as memory holds it: two bytes, high byte first (R70). -/
def encodeBytes (i : Instr) : List Byte := [highByte (encode i), lowByte (encode i)]

/-! ## The opcode table as data -/

/-- One row of spec/opcode_table.json: a word `w` matches iff `w &&& mask = pattern` (R74). -/
structure OpcodeRow where
  mnemonic : String
  pattern : Word16
  mask : Word16
deriving DecidableEq, Repr

/-- The rows of family 0, the eight special forms before `Sys` (R75). -/
def opcodeRows0 : List OpcodeRow :=
  [⟨"Scd", 0x00C0, 0xFFF0⟩, ⟨"Cls", 0x00E0, 0xFFFF⟩, ⟨"Ret", 0x00EE, 0xFFFF⟩, ⟨"Scr", 0x00FB, 0xFFFF⟩,
   ⟨"Scl", 0x00FC, 0xFFFF⟩, ⟨"Exit", 0x00FD, 0xFFFF⟩, ⟨"Low", 0x00FE, 0xFFFF⟩, ⟨"High", 0x00FF, 0xFFFF⟩,
   ⟨"Sys", 0x0000, 0xF000⟩]

/-- The rows of families 1 to D (R76, R77). -/
def opcodeRows1 : List OpcodeRow :=
  [⟨"Jump", 0x1000, 0xF000⟩, ⟨"Call", 0x2000, 0xF000⟩, ⟨"SkipEqImm", 0x3000, 0xF000⟩,
   ⟨"SkipNeqImm", 0x4000, 0xF000⟩, ⟨"SkipEqReg", 0x5000, 0xF00F⟩, ⟨"LoadImm", 0x6000, 0xF000⟩,
   ⟨"AddImm", 0x7000, 0xF000⟩, ⟨"LoadReg", 0x8000, 0xF00F⟩, ⟨"Or", 0x8001, 0xF00F⟩, ⟨"And", 0x8002, 0xF00F⟩,
   ⟨"Xor", 0x8003, 0xF00F⟩, ⟨"AddReg", 0x8004, 0xF00F⟩, ⟨"Sub", 0x8005, 0xF00F⟩, ⟨"Shr", 0x8006, 0xF00F⟩,
   ⟨"SubNeg", 0x8007, 0xF00F⟩, ⟨"Shl", 0x800E, 0xF00F⟩, ⟨"SkipNeqReg", 0x9000, 0xF00F⟩,
   ⟨"LoadAddr", 0xA000, 0xF000⟩, ⟨"JumpAddrPlusV0", 0xB000, 0xF000⟩, ⟨"RandModImm", 0xC000, 0xF000⟩,
   ⟨"Draw", 0xD000, 0xF000⟩]

/-- The rows of families E and F (R78, R79). -/
def opcodeRowsEF : List OpcodeRow :=
  [⟨"SkipKey", 0xE09E, 0xF0FF⟩, ⟨"SkipNotKey", 0xE0A1, 0xF0FF⟩, ⟨"LoadRegDelay", 0xF007, 0xF0FF⟩,
   ⟨"WaitKey", 0xF00A, 0xF0FF⟩, ⟨"LoadDelayReg", 0xF015, 0xF0FF⟩, ⟨"LoadSoundReg", 0xF018, 0xF0FF⟩,
   ⟨"AddAddrReg", 0xF01E, 0xF0FF⟩, ⟨"LoadAddrDigit", 0xF029, 0xF0FF⟩, ⟨"LoadAddrBigDigit", 0xF030, 0xF0FF⟩,
   ⟨"MemStoreBcd", 0xF033, 0xF0FF⟩, ⟨"MemStoreRegs", 0xF055, 0xF0FF⟩, ⟨"MemLoadRegs", 0xF065, 0xF0FF⟩,
   ⟨"RplStoreRegs", 0xF075, 0xF0FF⟩, ⟨"RplLoadRegs", 0xF085, 0xF0FF⟩]

/-- The opcode table, in its own order. -/
def opcodeTable : List OpcodeRow := opcodeRows0 ++ (opcodeRows1 ++ opcodeRowsEF)

/-- Does the word match the row? -/
def OpcodeRow.covers (r : OpcodeRow) (w : Word16) : Bool := w &&& r.mask == r.pattern

/-- The mnemonic the table gives a word: that of the first row that matches (R74). -/
def tableMnemonic (w : Word16) : Option String :=
  (opcodeTable.find? (fun r => r.covers w)).map (fun r => r.mnemonic)

/-! ## The host's probe -/

/-- The instruction the decoder reads from the `nbits`-bit number `w` laid out as the hardware stores it. -/
def decodeTableWord (nbits w : Nat) : Option Instr :=
  let word : Word16 := BitVec.ofNat 16 (w % 2 ^ nbits)
  match decodeBytes [highByte word, lowByte word] with
  | .ok (i, _) => some i
  | .error _ => none

end Sys2Proof
end

