-- ==== Sys2Proof/Config.lean ====
section
/-! DEFINITION. The constants of this hardware (00_scope.md R4) and its free values: the random bytes (42_alu.md R152),
the host's moves between steps (60_exceptions.md R236, R238) and the answers of the key-wait provider (44_keyboard.md
R193). The font bytes, an open parameter with a default, stand in Machine/Font.lean, where a repair may mend them. -/

namespace Sys2Proof.Machine

/-- An answer of the key-wait provider: "either a key code (0–15) or a textual failure" (R193). -/
inductive KeyAnswer where
  | code (c : Fin 16)
  | failure (m : String)
deriving DecidableEq, Repr

/-- A move the host has at every point of a run: a `step`, or one of the events that may come between any two steps
in any number and order (R5, R236, R238). -/
inductive HostMove where
  | step
  | tick
  | keyPressed (code : Fin 16)
  | keyReleased (code : Fin 16)
deriving DecidableEq, Repr, Inhabited

end Sys2Proof.Machine

namespace Sys2Proof.Config

/-- `MEM_SIZE`: the memory capacity in bytes (R4, R40). -/
def memSize : Nat := 4096

/-- `ADDR_MOD`: the modulus of address arithmetic (R4). -/
def addrMod : Nat := 0x1000

/-- `ROM_BASE`: the load and entry address (R4, R261). -/
def romBase : Nat := 0x200

/-- `ROM_MAX`: the largest program image in bytes (R4, R262). -/
def romMax : Nat := 3584

/-- `STACK_DEPTH`: the number of call-stack slots (R4, R15). -/
def stackDepth : Nat := 16

/-- `SPRITE_MAX`: the most rows of a small sprite (R4, R162). -/
def spriteMax : Nat := 15

/-- `BIG_SPRITE_BYTES`: the size of a 16×16 sprite (R4, R163). -/
def bigSpriteBytes : Nat := 32

/-- `HSCROLL`: the distance of a horizontal scroll in pixels (R4, R166). -/
def hScroll : Nat := 4

/-- `FONT_BASE` and the size of one digit sprite (R4, R47, R48). -/
def fontBase : Nat := 0
def digitBytes : Nat := 5

/-- A FREE VALUE (R152 `draw_byte()`, 93 U11): the byte drawn by the `n`-th execution of `RandModImm`. The spec
puts no law on it, so it has no body: nothing can be proved of a particular draw (log entry 3). -/
opaque randomByte : Nat → Byte

/-- A FREE VALUE (R5, R236 "whatever the host makes it", 92 D27): the host's `n`-th move once the events that the state
lists are used up. No body: every interleaving of `step`, `tick` and key events is allowed, for ever (log entry 1). -/
opaque hostMove : Nat → Machine.HostMove

/-- A FREE VALUE (R193, 92 D22): what the key-wait provider does at the `n`-th machine step of waiting for it, once the
answers that the state lists are used up: an answer, or none yet. No body: it may answer every call, or never (log
entry 2). -/
opaque keyAnswer : Nat → Option Machine.KeyAnswer

end Sys2Proof.Config
end

