-- ==== Sys2Proof/Machine/State.lean ====
section
/-! DEFINITION. The state of the machine as plain data (10_state.md), the ways a step stops (60_exceptions.md
R220, R227), and the state after reset (70_reset_and_hazards.md R260). -/

namespace Sys2Proof.Machine

/-- The ways a `step` fails (R220), and the model-level fault of R227. All are safe: the model stops, or under
`HOST_ON_FAULT = continue` goes on, exactly where the spec says the step returns the error to the host. -/
inductive Fault where
  /-- Raised by `Call` when `SP = 16` (R17, R103). Safe. -/
  | stackOverflow
  /-- Raised by `Ret` when `SP = 0` (R18, R104). Safe. -/
  | stackUnderflow
  /-- Raised by the host event `load_rom` for an image of more than 3584 bytes (R262). Safe. -/
  | romTooLarge
  /-- Raised by `Draw`, `MemStoreBcd`, `MemStoreRegs`, `MemLoadRegs` for a block of `n` bytes at `I` with
  `I + n >= 4096` (R44, R45), and by the single-byte ports (R42, R43). Safe. -/
  | addressOutOfRange
  /-- Raised by `LoadAddrDigit` when `V[x] > 15` (R123). Safe. -/
  | invalidDigitSprite
  /-- Raised by the display primitives for a sprite of a wrong size; no instruction reaches it (R162, R163). Safe. -/
  | invalidSprite
  /-- Raised by the sequencer when the fetch or the decode fails (R225), and by `LoadAddrBigDigit` (R124). Safe. -/
  | invalidOpcode
  /-- Raised by `RplStoreRegs` and `RplLoadRegs` when `x > 8`, carrying the index (R205). Safe. -/
  | registerOutOfRange (r : RegIndex)
  /-- Raised by `WaitKey` when the provider reports a failure, carrying its text (R192). Safe. -/
  | unknown (m : String)
  /-- Raised by `SkipKey` and `SkipNotKey` when `V[x] > 15`: no source defines the effect and the spec asks for a
  fault that is never a final state (R227). Raised too by a push or a pop with `SP > 16`, which R15 rules out
  (log entry 11). Safe. -/
  | unspecified
deriving DecidableEq, Repr

/-- Why a step has no meaning at all. -/
inductive Refusal where
  /-- An instruction whose meaning is not written; no arm of `exec` uses it. Safe. -/
  | notModelled (mnemonic : String)
  /-- The schedule holds a `load_rom` that the host may not issue: a second one, or one after the first `step`
  (R262, 93 U21: "refuse"; log entry 6). Safe. -/
  | romLoadNotOffered
deriving DecidableEq, Repr

/-- The two machine-level states (R25, R241). -/
inductive Power where
  | running
  | halted
deriving DecidableEq, Repr

/-- The open parameter `HOST_ON_FAULT` (R231): no step follows a failed one, or steps go on. -/
inductive OnFault where
  | stop
  | goOn
deriving DecidableEq, Repr

/-- An event at the block's boundary (R5). A code above 15 is no move of the host (R238, 93 U7). -/
inductive HostEvent where
  | step
  | tick
  | keyPressed (code : Fin 16)
  | keyReleased (code : Fin 16)
  | loadRom (image : List Byte)
deriving DecidableEq, Repr

/-- The memory: address and byte pairs in rising order of address, without the bytes that hold what they hold at
reset (20_memory.md R40; log entry 10). -/
abbrev Memory := List Host.Cell

/-- One row of the framebuffer: 128 one-bit cells, bit `col` the cell of column `col` (R23; log entry 19). -/
abbrev FbRow := BitVec 128

/-- The framebuffer: 64 rows, row 0 at the top (R23). -/
abbrev Framebuffer := Vector FbRow 64

/-- Everything the machine holds. -/
structure State where
  /-- `V[0..15]`; VF is `V[15]` (R10, R11). -/
  v : Vector Byte 16
  /-- The index register `I` (R14). -/
  i : Word16
  /-- The program counter (R12). -/
  pc : Word16
  /-- The stack pointer, the number of valid entries (R15). -/
  sp : Byte
  /-- The call stack (R15, R16). -/
  stack : Vector Word16 16
  /-- The auxiliary registers (R19). -/
  rpl : Vector Byte 8
  /-- The delay timer `DT` (R20). -/
  dt : Byte
  /-- The sound timer `ST` (R21). -/
  st : Byte
  /-- The key latch, `true` for pressed (R22). -/
  key : Vector Bool 16
  /-- The framebuffer, hidden cells included (R23, R28). -/
  fb : Framebuffer
  /-- The high-resolution flag (R24). -/
  hires : Bool
  /-- Running or Halted (R25). -/
  power : Power
  /-- The 4096-byte memory (R40). -/
  mem : Memory
  /-- A `WaitKey` in the middle of its `step`: the destination register (R192, R241). -/
  waiting : Option RegIndex
  /-- The model's own: the events the host issues next; when the list is empty, its free moves (R5, R236, R238; log
  entry 1). -/
  schedule : List HostEvent
  /-- The model's own: how many free moves of the host were made (R236; log entry 1). -/
  moves : Nat
  /-- The model's own: the answers the provider gives next; when the list is empty, its free ones (R193; log entry 2). -/
  keyAnswers : List KeyAnswer
  /-- The model's own: how often a waiting step looked for a free answer of the provider (R193; log entry 2). -/
  asks : Nat
  /-- The model's own: how many random bytes were drawn (R152; log entry 3). -/
  draws : Nat
  /-- The model's own: `load_rom` may still be issued (R262; log entry 6). -/
  romOpen : Bool
  /-- The host's parameter `HOST_ON_FAULT` (R231; log entry 4). -/
  onFault : OnFault
  /-- The model's own: the error the last `step` or `load_rom` returned to the host (R222, R230; log entry 5). -/
  returned : Option Fault
deriving DecidableEq, Repr

/-- The machine right after reset (R260). Memory lists nothing: it reads as the font and zeros. -/
def State.reset : State where
  v := Vector.replicate 16 0
  i := 0
  pc := 0x200
  sp := 0
  stack := Vector.replicate 16 0
  rpl := Vector.replicate 8 0
  dt := 0
  st := 0
  key := Vector.replicate 16 false
  fb := Vector.replicate 64 0
  hires := false
  power := .running
  mem := []
  waiting := none
  schedule := []
  moves := 0
  keyAnswers := []
  asks := 0
  draws := 0
  romOpen := true
  onFault := .stop
  returned := none

end Sys2Proof.Machine
end

