-- ==== Sys2Proof/Machine/Framebuffer.lean ====
section
/-! DEFINITION. The primitives of the display block (43_display.md R160–R167): clear, the XOR blitter and the scroll
engine. -/

namespace Sys2Proof.Machine

/-- The effective width (R24). -/
def effWidth (hires : Bool) : Nat := if hires then 128 else 64

/-- The effective height (R24). -/
def effHeight (hires : Bool) : Nat := if hires then 64 else 32

/-- `FB[row][col]` (R23). -/
def Framebuffer.cell (fb : Framebuffer) (row : Fin 64) (col : Fin 128) : Bool := fb[row.val].getLsbD col.val

/-- A column reduced modulo the effective width (R161). -/
def wrapCol (hires : Bool) (c : Nat) : Fin 128 :=
  ⟨c % effWidth hires, by unfold effWidth; split <;> omega⟩

/-- A row reduced modulo the effective height (R161). -/
def wrapRow (hires : Bool) (r : Nat) : Fin 64 :=
  ⟨r % effHeight hires, by unfold effHeight; split <;> omega⟩

/-- `FB[row][col] <- FB[row][col] ^ bit` (R162). -/
def Framebuffer.xorCell (fb : Framebuffer) (row : Fin 64) (col : Fin 128) (bit : Bool) : Framebuffer :=
  if bit then fb.set row.val (fb[row.val] ^^^ BitVec.twoPow 128 col.val) else fb

/-- A framebuffer under the blitter: the cells, and whether a lit pixel was erased so far (R162, R164). -/
abbrev Blit := Framebuffer × Bool

/-- One pixel of the blitter: bit `7 - c` of the sprite byte, XORed into the cell at `(x0 + c, row)` (R162). -/
def drawPixel (hires : Bool) (x0 row : Nat) (byte : Byte) (p : Blit) (c : Nat) : Blit :=
  let bit := byte.getLsbD (7 - c)
  let lit := p.1.cell (wrapRow hires row) (wrapCol hires (x0 + c))
  (p.1.xorCell (wrapRow hires row) (wrapCol hires (x0 + c)) bit, p.2 || (bit && lit))

/-- One sprite byte: its eight pixels from the leftmost, the most significant bit (R162). -/
def drawByte (hires : Bool) (x0 row : Nat) (byte : Byte) (p : Blit) : Blit :=
  (List.range 8).foldl (drawPixel hires x0 row byte) p

/-- The sprite bytes one under the other from `row` on (R162). -/
def drawRows (hires : Bool) (x0 row : Nat) : List Byte → Blit → Blit
  | [], p => p
  | b :: bs, p => drawRows hires x0 (row + 1) bs (drawByte hires x0 row b p)

/-- `draw(x0, y0, b)`: the XOR blitter, refusing a sprite of more than 15 rows (R162). -/
def drawSprite (hires : Bool) (x0 y0 : Nat) (b : List Byte) (fb : Framebuffer) : Except Fault Blit :=
  if b.length > Config.spriteMax then .error .invalidSprite else .ok (drawRows hires x0 y0 b (fb, false))

/-- The rows of a 16×16 sprite, each by two calls of `draw` with one byte: left half, then right half at `x0 + 8`
(R163; log entry 18). -/
def drawLargeRows (hires : Bool) (x0 row : Nat) : List Byte → Blit → Except Fault Blit
  | l :: r :: rest, (fb, erased) =>
    match drawSprite hires x0 row [l] fb with
    | .error e => .error e
    | .ok (fb1, e1) =>
      match drawSprite hires (x0 + 8) row [r] fb1 with
      | .error e => .error e
      | .ok (fb2, e2) => drawLargeRows hires x0 (row + 1) rest (fb2, erased || e1 || e2)
  | _, p => .ok p

/-- `draw_large(x0, y0, b)`: exactly 32 bytes (R163). -/
def drawLarge (hires : Bool) (x0 y0 : Nat) (b : List Byte) (fb : Framebuffer) : Except Fault Blit :=
  if b.length ≠ Config.bigSpriteBytes then .error .invalidSprite else drawLargeRows hires x0 y0 b (fb, false)

/-- Every row of the framebuffer by its number. -/
def Framebuffer.mapRows (f : Nat → FbRow → FbRow) (fb : Framebuffer) : Framebuffer :=
  ⟨(fb.toList.mapIdx f).toArray, by simp⟩

/-- The cells of a row with the first `n` columns dark. -/
def darkenLeft (n : Nat) (row : FbRow) : FbRow := row &&& (BitVec.allOnes 128 <<< n)

/-- `clear()`: zero in every cell of the effective window; the hidden cells keep their values (R160). -/
def Framebuffer.clear (hires : Bool) (fb : Framebuffer) : Framebuffer :=
  fb.mapRows (fun r row => if r < effHeight hires then darkenLeft (effWidth hires) row else row)

/-- `scroll_down(n)`: all rows of the buffer down by `n`, the top `n` rows dark, in both modes (R165). -/
def Framebuffer.scrollDown (n : Nat) (fb : Framebuffer) : Framebuffer :=
  ⟨((List.replicate n (0 : FbRow) ++ fb.toList).take 64).toArray, by simp⟩

/-- `scroll_right()`: all columns of the buffer right by 4, columns 0..3 dark, in both modes (R166; log entry 18).
Column `col` is bit `col`, so the columns move by a left shift of the row. -/
def Framebuffer.scrollRight (fb : Framebuffer) : Framebuffer := fb.mapRows (fun _ row => row <<< Config.hScroll)

/-- `scroll_left()`: all columns of the buffer left by 4, columns 124..127 dark, in both modes (R167; log entry 18). -/
def Framebuffer.scrollLeft (fb : Framebuffer) : Framebuffer := fb.mapRows (fun _ row => row >>> Config.hScroll)

end Sys2Proof.Machine
end

