-- ==== Sys2Proof/Machine/Font.lean ====
section
/-! DEFINITION. The open parameter `FONT[0..79]` at its default (20_memory.md R47): the customary Chip-8 font, from
the spec's general knowledge (log entry 8). No rule depends on the values, only on their place and size. -/

namespace Sys2Proof.Config

/-- The sixteen five-byte glyphs, digits 0 to F (R47). -/
def font : List Byte :=
  [0xF0, 0x90, 0x90, 0x90, 0xF0, 0x20, 0x60, 0x20, 0x20, 0x70] ++
  ([0xF0, 0x10, 0xF0, 0x80, 0xF0, 0xF0, 0x10, 0xF0, 0x10, 0xF0] ++
  ([0x90, 0x90, 0xF0, 0x10, 0x10, 0xF0, 0x80, 0xF0, 0x10, 0xF0] ++
  ([0xF0, 0x80, 0xF0, 0x90, 0xF0, 0xF0, 0x10, 0x20, 0x40, 0x40] ++
  ([0xF0, 0x90, 0xF0, 0x90, 0xF0, 0xF0, 0x90, 0xF0, 0x10, 0xF0] ++
  ([0xF0, 0x90, 0xF0, 0x90, 0x90, 0xE0, 0x90, 0xE0, 0x90, 0xE0] ++
  ([0xF0, 0x80, 0x80, 0x80, 0xF0, 0xE0, 0x90, 0x90, 0x90, 0xE0] ++
   [0xF0, 0x80, 0xF0, 0x80, 0xF0, 0xF0, 0x80, 0xF0, 0x80, 0x80]))))))

/-- What a byte holds after reset: the font in 0..79, zero above (R41, R47, R260; log entries 8 and 9). -/
def resetByte (a : Nat) : Byte := (font[a]?).getD 0

end Sys2Proof.Config
end

