-- ==== Sys2Proof/Machine/Memory.lean ====
section
/-! DEFINITION. The memory and its access primitives (20_memory.md). One store of one byte decides the canonical
form; every wider access is made of single bytes in ascending addresses (R49). -/

namespace Sys2Proof.Machine

/-- `M[a]`, with no check (R7): a listed byte, else what the address holds at reset. -/
def Memory.read : Memory → Nat → Byte
  | [], a => Config.resetByte a
  | (k, b) :: m, a => if k = a then b else Memory.read m a

/-- The pair in front of a list, left out when it says what an unlisted address reads as. -/
def Memory.cons (a : Nat) (b : Byte) (m : Memory) : Memory :=
  if b = Config.resetByte a then m else (a, b) :: m

/-- `M[a] <- b`, with no check (R7), keeping the canonical form. -/
def Memory.write : Memory → Nat → Byte → Memory
  | [], a, b => Memory.cons a b []
  | (k, c) :: m, a, b =>
    if a < k then Memory.cons a b ((k, c) :: m)
    else if a = k then Memory.cons a b m
    else (k, c) :: Memory.write m a b

/-- Canonical from address `lo` on: rising addresses below the capacity, no byte at its reset value. -/
def Memory.wfFrom : Nat → Memory → Bool
  | _, [] => true
  | lo, (k, b) :: m =>
    decide (lo ≤ k) && decide (k < Config.memSize) && b != Config.resetByte k && Memory.wfFrom (k + 1) m

/-- The canonical form of a memory (log entry 10). -/
def Memory.wf (m : Memory) : Bool := Memory.wfFrom 0 m

/-- `n` consecutive bytes from `a` on, with no check. -/
def Memory.readMany (m : Memory) (a : Nat) : Nat → List Byte
  | 0 => []
  | n + 1 => m.read a :: Memory.readMany m (a + 1) n

/-- Consecutive bytes from `a` on, with no check, in ascending addresses. -/
def Memory.writeMany (m : Memory) (a : Nat) : List Byte → Memory
  | [] => m
  | b :: bs => Memory.writeMany (m.write a b) (a + 1) bs

/-- `MemRead(addr, 1)`, the source's `read_byte` (R42). No instruction uses it. -/
def memReadByte (m : Memory) (addr : Nat) : Except Fault Byte :=
  if addr ≥ Config.memSize then .error .addressOutOfRange else .ok (m.read addr)

/-- `MemWrite(addr, 1, v)`, the source's `write_byte` (R43). No instruction uses it. -/
def memWriteByte (m : Memory) (addr : Nat) (b : Byte) : Except Fault Memory :=
  if addr ≥ Config.memSize then .error .addressOutOfRange else .ok (m.write addr b)

/-- The bound of every block access: `addr + n >= 4096` is out of range, so the last byte is never reached
(R44, R45; log entry 14). -/
def blockOutOfRange (addr n : Nat) : Bool := decide (addr + n ≥ Config.memSize)

/-- `MemRead(addr, n)`: the whole block is checked before any byte is read (R44). -/
def memRead (m : Memory) (addr n : Nat) : Except Fault (List Byte) :=
  if blockOutOfRange addr n then .error .addressOutOfRange else .ok (m.readMany addr n)

/-- `MemWrite(addr, n, b)`: the whole block is checked before any byte is written (R45). -/
def memWrite (m : Memory) (addr : Nat) (bs : List Byte) : Except Fault Memory :=
  if blockOutOfRange addr bs.length then .error .addressOutOfRange else .ok (m.writeMany addr bs)

/-- `FetchInstr(addr)`: two bytes, high byte first, or nothing when they would exceed the capacity (R46). -/
def fetchInstr (m : Memory) (addr : Nat) : Option (Byte × Byte) :=
  if addr + 2 > Config.memSize then none else some (m.read addr, m.read (addr + 1))

end Sys2Proof.Machine
end

