-- ==== Sys2Proof/Machine/Ops.lean ====
section
/-! DEFINITION. The named operations over registers, stack and host boundary, and `raise`, the one way an error ends
a step (60_exceptions.md R222, R230, R231). There is no return from an error to model: the machine has no
return-from-trap instruction and nothing to restore (R231). -/

namespace Sys2Proof.Machine

/-- The outcome of one step of this machine. -/
abbrev Outcome := Host.Outcome State Fault Refusal

/-! ## Registers -/

/-- `V[x]` (R7, R10). -/
def State.reg (s : State) (x : RegIndex) : Byte := s.v[x.val]

/-- `V[x] <- b` (R7, R10): no register is hardwired. -/
def State.setReg (s : State) (x : RegIndex) (b : Byte) : State := { s with v := s.v.set x.val b }

/-- The index of VF (R4 `FLAG_REG`, R11). -/
def vf : RegIndex := 15

/-- `pc <- target`; the target is not checked (R7, R110). -/
def State.jumpTo (s : State) (target : Word16) : State := { s with pc := target }

/-- Advance `PC` over one instruction: the sequencer's advance, and a taken skip (R12, R105, R225). -/
def State.advance (s : State) : State := { s with pc := s.pc + 2 }

/-- `I <- a` (R7, R14). -/
def State.setI (s : State) (a : Word16) : State := { s with i := a }

/-- Copy a list into consecutive places of a register file from place `k` on. -/
def putBlock {α : Type} {n : Nat} (vec : Vector α n) (k : Nat) : List α → Vector α n
  | [] => vec
  | b :: bs => putBlock (vec.setIfInBounds k b) (k + 1) bs

/-! ## Errors -/

/-- `raise E`: the step ends at once with the error; what was written so far stays written and nothing is latched
in the core (R222). Under `HOST_ON_FAULT = stop` the run ends there; under `continue` the host has the error in
hand and steps go on from the state as it is left (R231). `Unspecified` is a fault under either policy (R227). -/
def raise (e : Fault) (s : State) : Outcome :=
  if e = .unspecified then .fault e
  else match s.onFault with
    | .stop => .fault e
    | .goOn => .next { s with returned := some e }

/-- The code of an error kind, "for reference only": nothing in the machine stores it (R220). `Unspecified` has
none (R227). -/
def Fault.code : Fault → Option Nat
  | .stackOverflow => some 1
  | .stackUnderflow => some 2
  | .romTooLarge => some 3
  | .addressOutOfRange => some 4
  | .invalidDigitSprite => some 5
  | .invalidSprite => some 6
  | .invalidOpcode => some 7
  | .registerOutOfRange _ => some 8
  | .unknown _ => some 9
  | .unspecified => none

/-! ## The call stack -/

/-- `push(v)` (R17). A stack pointer above 16, which R15 rules out, names no slot (log entry 11). -/
def push (a : Word16) (s : State) : Except Fault State :=
  if h : s.sp.toNat < Config.stackDepth then
    .ok { s with stack := s.stack.set s.sp.toNat a h, sp := s.sp + 1 }
  else if s.sp.toNat = Config.stackDepth then .error .stackOverflow
  else .error .unspecified

/-- `pop()` (R18): the newest entry, and the state with `SP` one less; the slot keeps its value (R16). -/
def pop (s : State) : Except Fault (Word16 × State) :=
  if s.sp.toNat = 0 then .error .stackUnderflow
  else if h : s.sp.toNat - 1 < Config.stackDepth then .ok (s.stack[s.sp.toNat - 1]'h, { s with sp := s.sp - 1 })
  else .error .unspecified

/-! ## The host's answers inside a step -/

/-- `draw_byte()`: a fresh free byte, and the state that has drawn it (R152; log entry 3). -/
def drawByteFree (s : State) : Byte × State := (Config.randomByte s.draws, { s with draws := s.draws + 1 })

/-- The provider's answer ends the `WaitKey` for the destination `x`: a code is written, a failure raises `Unknown`
and leaves the register (R192). -/
def answerKeyWait (x : RegIndex) (a : KeyAnswer) (s : State) : Outcome :=
  match a with
  | .code c => .next (({ s with waiting := none } : State).setReg x (BitVec.ofNat 8 c.val))
  | .failure m => raise (.unknown m) { s with waiting := none }

/-- The call `key_wait()` for the destination `x`: a listed answer completes the instruction at once; else the step
stays in progress, `PC` advanced, and nothing else happens (R192, R193, R270). -/
def keyWait (x : RegIndex) (s : State) : Outcome :=
  match s.keyAnswers with
  | a :: rest => answerKeyWait x a { s with keyAnswers := rest }
  | [] => .next { s with waiting := some x }

/-- A `WaitKey` in progress for the destination `x`: the provider answers, from the list or freely, or the step is
still in progress (R193, R270; log entry 2). -/
def continueKeyWait (x : RegIndex) (s : State) : Outcome :=
  match s.keyAnswers with
  | a :: rest => answerKeyWait x a { s with keyAnswers := rest }
  | [] =>
    match Config.keyAnswer s.asks with
    | some a => answerKeyWait x a { s with asks := s.asks + 1 }
    | none => .next { s with asks := s.asks + 1 }

/-! ## Placing an instruction for the host's probe -/

/-- The state in which the very next machine step is a core `step` at an address that can be fetched from: Running,
no `WaitKey` in progress, the next event a `step`, and `PC` moved to the entry address if it is past the last
fetchable one. Nothing else changes (log entry 21). -/
def State.readyToFetch (s : State) : State :=
  { s with
    pc := if s.pc.toNat + 2 > Config.memSize then BitVec.ofNat 16 Config.romBase else s.pc
    power := .running
    waiting := none
    schedule := match s.schedule with
      | [] => [.step]
      | .step :: rest => .step :: rest
      | e :: rest => .step :: e :: rest }

/-- The word of an instruction stored at `PC`, high byte first (R46, R49). -/
def State.placeWord (s : State) (w : Word16) : State :=
  { s with mem := s.mem.writeMany s.pc.toNat [highByte w, lowByte w] }

end Sys2Proof.Machine
end

