-- ==== Sys2Proof/Machine/Operands.lean ====
section
/-! DEFINITION. The operand forms (30_encoding.md R72, 45_memory_ops.md R200): every immediate is zero-extended, a
register operand names `V[x]`, and a register's value may name a digit, a key or a screen coordinate. -/

namespace Sys2Proof.Machine

/-- `zext_16(addr)`: a 12-bit address as a value of `PC` or `I` (R72, R101, R122). -/
def zextAddr (addr : Addr12) : Word16 := addr.zeroExtend 16

/-- `(zext_16(addr) + zext_16(V[0])) mod 0x1000` (R102). -/
def indexedTarget (addr : Addr12) (v0 : Byte) : Word16 :=
  BitVec.ofNat 16 ((addr.toNat + v0.toNat) % Config.addrMod)

/-- `(I + zext_16(V[x])) mod 0x1000` (R143). -/
def indexPlus (i : Word16) (b : Byte) : Word16 := BitVec.ofNat 16 ((i.toNat + b.toNat) % Config.addrMod)

/-- `sprite_address_for_digit(d)` (R48): the five-byte glyphs lie in digit order from address 0. -/
def spriteAddressForDigit (d : Nat) : Option Nat :=
  if d ≤ 15 then some (Config.fontBase + Config.digitBytes * d) else none

/-- The latch of the key a register's value names; none above 15, where no source defines a key (R190). -/
def keyPressed? (s : State) (code : Byte) : Option Bool :=
  if h : code.toNat < 16 then some (s.key[code.toNat]'h) else none

/-- The address of byte 0 of a block access: `I` as it stands (R200). -/
def blockBase (s : State) : Nat := s.i.toNat

/-- The registers `V[0], …, V[n-1]` as a sequence (R202, R206). -/
def firstRegs (s : State) (n : Nat) : List Byte := s.v.toList.take n

/-- Hundreds, tens and ones of a byte, one digit a byte (R201). -/
def bcdDigits (b : Byte) : List Byte :=
  [BitVec.ofNat 8 (b.toNat / 100), BitVec.ofNat 8 (b.toNat / 10 % 10), BitVec.ofNat 8 (b.toNat % 10)]

/-- `r mod (imm + 1)`, the divisor formed without wrap (R152). -/
def remainderImm (r imm : Byte) : Byte := BitVec.ofNat 8 (r.toNat % (imm.toNat + 1))

end Sys2Proof.Machine
end

