-- ==== Sys2Proof/Machine/Flags.lean ====
section
/-! DEFINITION. The flag computations (10_state.md R11, 42_alu.md R140, R141): VF holds exactly 0 or 1 after each,
and the two writes of a flag-writing instruction happen in the order of its row. -/

namespace Sys2Proof.Machine

/-- A flag as the byte VF holds (R11). -/
def flagByte (f : Bool) : Byte := if f then 1 else 0

/-- Carry out of bit 7 (R144). -/
def carryOut (a b : Byte) : Bool := decide (a.toNat + b.toNat > 255)

/-- "No borrow", the strict test `a > b` (R145, R146): equal operands give 0. -/
def noBorrow (a b : Byte) : Bool := decide (a.toNat > b.toNat)

/-- The bit `Shr` shifts out, old bit 0 (R150). -/
def bitOutRight (a : Byte) : Bool := a.getLsbD 0

/-- The bit `Shl` shifts out, old bit 7 (R151). -/
def bitOutLeft (a : Byte) : Bool := a.getLsbD 7

/-- `VF <- f`. -/
def State.setFlag (s : State) (f : Bool) : State := s.setReg vf (flagByte f)

/-- `AddReg`, `Sub`, `SubNeg`: `V[x]` is written, then VF, so with `x = 15` VF ends as the flag (R141). -/
def resultThenFlag (x : RegIndex) (result : Byte) (f : Bool) (s : State) : State := (s.setReg x result).setFlag f

/-- `Shr`, `Shl`: VF is written from the old `V[x]`, then `V[x]` is read again and shifted, so with `x = 15` the
flag itself is shifted (R141). -/
def flagThenShift (x : RegIndex) (f : Bool) (shift : Byte → Byte) (s : State) : State :=
  (s.setFlag f).setReg x (shift ((s.setFlag f).reg x))

end Sys2Proof.Machine
end

