-- ==== Sys2Proof/Machine/Alu.lean ====
section
/-! DEFINITION. Arithmetic, logic, shift and random instructions (42_alu.md): every 8-bit result wraps modulo 256,
and none can raise an error (R140). -/

namespace Sys2Proof.Machine

/-- `AddImm(x, imm)`: no flag effect (R142). -/
def execAddImm (x : RegIndex) (imm : Byte) (s : State) : Outcome := .next (s.setReg x (s.reg x + imm))

/-- `AddAddrReg(x)`: no flag effect (R143). -/
def execAddAddrReg (x : RegIndex) (s : State) : Outcome := .next (s.setI (indexPlus s.i (s.reg x)))

/-- `AddReg(x, y)` (R144). -/
def execAddReg (x y : RegIndex) (s : State) : Outcome :=
  .next (resultThenFlag x (s.reg x + s.reg y) (carryOut (s.reg x) (s.reg y)) s)

/-- `Sub(x, y)`: `V[x] - V[y]` (R145). -/
def execSub (x y : RegIndex) (s : State) : Outcome :=
  .next (resultThenFlag x (s.reg x - s.reg y) (noBorrow (s.reg x) (s.reg y)) s)

/-- `SubNeg(x, y)`: `V[y] - V[x]` into `V[x]` (R146). -/
def execSubNeg (x y : RegIndex) (s : State) : Outcome :=
  .next (resultThenFlag x (s.reg y - s.reg x) (noBorrow (s.reg y) (s.reg x)) s)

/-- `Or(x, y)` (R147). -/
def execOr (x y : RegIndex) (s : State) : Outcome := .next (s.setReg x (s.reg x ||| s.reg y))

/-- `And(x, y)` (R148). -/
def execAnd (x y : RegIndex) (s : State) : Outcome := .next (s.setReg x (s.reg x &&& s.reg y))

/-- `Xor(x, y)` (R149). -/
def execXor (x y : RegIndex) (s : State) : Outcome := .next (s.setReg x (s.reg x ^^^ s.reg y))

/-- `Shr(x)`: `V[x]` in place, one place, logical (R150). -/
def execShr (x : RegIndex) (s : State) : Outcome :=
  .next (flagThenShift x (bitOutRight (s.reg x)) (fun b => b >>> 1) s)

/-- `Shl(x)`: `V[x]` in place, one place (R151). -/
def execShl (x : RegIndex) (s : State) : Outcome :=
  .next (flagThenShift x (bitOutLeft (s.reg x)) (fun b => b <<< 1) s)

/-- `RandModImm(x, imm)`: a free byte modulo `imm + 1` (R152). -/
def execRandModImm (x : RegIndex) (imm : Byte) (s : State) : Outcome :=
  .next ((drawByteFree s).2.setReg x (remainderImm (drawByteFree s).1 imm))

end Sys2Proof.Machine
end

