-- ==== Sys2Proof/Machine/Control.lean ====
section
/-! DEFINITION. Control transfer and system instructions (40_control_flow.md). Every meaning runs with `PC` already
advanced (60_exceptions.md R225): `s.pc` is the address of the next instruction. -/

namespace Sys2Proof.Machine

/-- `Sys(addr)`: a jump (R100). -/
def execSys (addr : Addr12) (s : State) : Outcome := .next (s.jumpTo (zextAddr addr))

/-- `Jump(addr)` (R101). -/
def execJump (addr : Addr12) (s : State) : Outcome := .next (s.jumpTo (zextAddr addr))

/-- `JumpAddrPlusV0(addr)`: the register is always `V[0]` (R102). -/
def execJumpAddrPlusV0 (addr : Addr12) (s : State) : Outcome := .next (s.jumpTo (indexedTarget addr (s.reg 0)))

/-- `Call(addr)`: push the address after the `Call`, then jump (R103). -/
def execCall (addr : Addr12) (s : State) : Outcome :=
  match push s.pc s with
  | .ok t => .next (t.jumpTo (zextAddr addr))
  | .error e => raise e s

/-- `Ret` (R104). -/
def execRet (s : State) : Outcome :=
  match pop s with
  | .ok (a, t) => .next (t.jumpTo a)
  | .error e => raise e s

/-- Skip the next instruction iff the condition holds: address arithmetic only (R105). -/
def skipIf (c : Bool) (s : State) : Outcome := .next (if c then s.advance else s)

/-- `SkipEqImm(x, imm)` (R105). -/
def execSkipEqImm (x : RegIndex) (imm : Byte) (s : State) : Outcome := skipIf (s.reg x == imm) s

/-- `SkipNeqImm(x, imm)` (R106). -/
def execSkipNeqImm (x : RegIndex) (imm : Byte) (s : State) : Outcome := skipIf (s.reg x != imm) s

/-- `SkipEqReg(x, y)` (R107). -/
def execSkipEqReg (x y : RegIndex) (s : State) : Outcome := skipIf (s.reg x == s.reg y) s

/-- `SkipNeqReg(x, y)` (R108). -/
def execSkipNeqReg (x y : RegIndex) (s : State) : Outcome := skipIf (s.reg x != s.reg y) s

/-- `Exit`: power off (R109). -/
def execExit (s : State) : Outcome := .next { s with power := .halted }

end Sys2Proof.Machine
end

