-- ==== Sys2Proof/Machine/Display.lean ====
section
/-! DEFINITION. Display instructions (43_display.md R168–R174), over the primitives of Machine/Framebuffer.lean. -/

namespace Sys2Proof.Machine

/-- `Cls` (R168). -/
def execCls (s : State) : Outcome := .next { s with fb := s.fb.clear s.hires }

/-- The size of the sprite `Draw` reads: 32 bytes for `nib = 0`, else `nib` bytes (R169). -/
def spriteSize (nib : Nibble) : Nat := if nib = 0 then Config.bigSpriteBytes else nib.toNat

/-- The blit of `Draw`: the 16×16 form for `nib = 0`, in both display modes (R169; log entry 18). -/
def blitSprite (nib : Nibble) (hires : Bool) (x0 y0 : Nat) (b : List Byte) (fb : Framebuffer) : Except Fault Blit :=
  if nib = 0 then drawLarge hires x0 y0 b fb else drawSprite hires x0 y0 b fb

/-- `Draw(x, y, nib)`: the coordinates are read first, then the sprite, then the pixels are drawn, and VF is
written last (R169; log entry 16). -/
def execDraw (x y : RegIndex) (nib : Nibble) (s : State) : Outcome :=
  match memRead s.mem (blockBase s) (spriteSize nib) with
  | .error e => raise e s
  | .ok b =>
    match blitSprite nib s.hires (s.reg x).toNat (s.reg y).toNat b s.fb with
    | .error e => raise e s
    | .ok (fb, erased) => .next (({ s with fb := fb } : State).setFlag erased)

/-- `Scd(nib)` (R170). -/
def execScd (nib : Nibble) (s : State) : Outcome := .next { s with fb := s.fb.scrollDown nib.toNat }

/-- `Scr` (R171). -/
def execScr (s : State) : Outcome := .next { s with fb := s.fb.scrollRight }

/-- `Scl` (R172). -/
def execScl (s : State) : Outcome := .next { s with fb := s.fb.scrollLeft }

/-- `Low`: the flag alone (R173). -/
def execLow (s : State) : Outcome := .next { s with hires := false }

/-- `High`: the flag alone (R174). -/
def execHigh (s : State) : Outcome := .next { s with hires := true }

end Sys2Proof.Machine
end

