-- ==== Sys2Proof/Machine/Keyboard.lean ====
section
/-! DEFINITION. Keyboard instructions (44_keyboard.md). -/

namespace Sys2Proof.Machine

/-- `SkipKey(x)`: the key is the register's value; above 15 the effect is `Unspecified` (R190, R227; log entry 12). -/
def execSkipKey (x : RegIndex) (s : State) : Outcome :=
  match keyPressed? s (s.reg x) with
  | some pressed => skipIf pressed s
  | none => raise .unspecified s

/-- `SkipNotKey(x)` (R191). -/
def execSkipNotKey (x : RegIndex) (s : State) : Outcome :=
  match keyPressed? s (s.reg x) with
  | some pressed => skipIf (!pressed) s
  | none => raise .unspecified s

/-- `WaitKey(x)`: one call of the provider; the key latch is neither read nor written (R192). -/
def execWaitKey (x : RegIndex) (s : State) : Outcome := keyWait x s

end Sys2Proof.Machine
end

