-- ==== Sys2Proof/Machine/LoadMove.lean ====
section
/-! DEFINITION. Load and move instructions (41_load_move.md): assignments among registers, none touches memory. -/

namespace Sys2Proof.Machine

/-- `LoadImm(x, imm)` (R120). -/
def execLoadImm (x : RegIndex) (imm : Byte) (s : State) : Outcome := .next (s.setReg x imm)

/-- `LoadReg(x, y)`: the first operand is the destination (R121). -/
def execLoadReg (x y : RegIndex) (s : State) : Outcome := .next (s.setReg x (s.reg y))

/-- `LoadAddr(addr)` (R122). -/
def execLoadAddr (addr : Addr12) (s : State) : Outcome := .next (s.setI (zextAddr addr))

/-- `LoadAddrDigit(x)`: the whole value of `V[x]` is tested, with no masking (R123). -/
def execLoadAddrDigit (x : RegIndex) (s : State) : Outcome :=
  match spriteAddressForDigit (s.reg x).toNat with
  | some a => .next (s.setI (BitVec.ofNat 16 a))
  | none => raise .invalidDigitSprite s

/-- `LoadAddrBigDigit(x)`: it decodes and the engine has no arm for it; `V[x]` is not read (R124, R226). -/
def execLoadAddrBigDigit (_x : RegIndex) (s : State) : Outcome := raise .invalidOpcode s

/-- `LoadRegDelay(x)` (R125). -/
def execLoadRegDelay (x : RegIndex) (s : State) : Outcome := .next (s.setReg x s.dt)

/-- `LoadDelayReg(x)` (R126). -/
def execLoadDelayReg (x : RegIndex) (s : State) : Outcome := .next { s with dt := s.reg x }

/-- `LoadSoundReg(x)` (R127). -/
def execLoadSoundReg (x : RegIndex) (s : State) : Outcome := .next { s with st := s.reg x }

end Sys2Proof.Machine
end

