-- ==== Sys2Proof/Machine/MemoryBlock.lean ====
section
/-! DEFINITION. Memory block and RPL instructions (45_memory_ops.md): blocks at `I`, which none of them changes. -/

namespace Sys2Proof.Machine

/-- Store a block at `I`, checked as a whole before it starts (R45, R200). -/
def storeBlock (bs : List Byte) (s : State) : Outcome :=
  match memWrite s.mem (blockBase s) bs with
  | .ok m => .next { s with mem := m }
  | .error e => raise e s

/-- `MemStoreBcd(x)` (R201). -/
def execMemStoreBcd (x : RegIndex) (s : State) : Outcome := storeBlock (bcdDigits (s.reg x)) s

/-- `MemStoreRegs(x)`: `V[0]` to `V[x]` inclusive (R202). -/
def execMemStoreRegs (x : RegIndex) (s : State) : Outcome := storeBlock (firstRegs s (x.val + 1)) s

/-- `MemLoadRegs(x)`: all bytes are read before any register is written (R203). -/
def execMemLoadRegs (x : RegIndex) (s : State) : Outcome :=
  match memRead s.mem (blockBase s) (x.val + 1) with
  | .ok bs => .next { s with v := putBlock s.v 0 bs }
  | .error e => raise e s

/-- The range check of the RPL pair, on the operand's index, made before anything is copied (R205). -/
def rplCount (x : RegIndex) : Except Fault Nat :=
  if x.val > 8 then .error (.registerOutOfRange x) else .ok x.val

/-- `RplStoreRegs(x)`: `x` registers, `V[0]` to `V[x-1]` (R206). -/
def execRplStoreRegs (x : RegIndex) (s : State) : Outcome :=
  match rplCount x with
  | .ok n => .next { s with rpl := putBlock s.rpl 0 (firstRegs s n) }
  | .error e => raise e s

/-- `RplLoadRegs(x)`: `x` registers, `RPL[0]` to `RPL[x-1]` (R207). -/
def execRplLoadRegs (x : RegIndex) (s : State) : Outcome :=
  match rplCount x with
  | .ok n => .next { s with v := putBlock s.v 0 (s.rpl.toList.take n) }
  | .error e => raise e s

end Sys2Proof.Machine
end

