-- ==== Sys2Proof/Machine/Dispatch.lean ====
section
/-! DEFINITION. `execute(o)`: one arm per operation (60_exceptions.md R226). The state an arm is given has `PC`
already advanced over the instruction (R225). -/

namespace Sys2Proof.Machine

open Sys2Proof

def exec (i : Instr) (s : State) : Host.Outcome State Fault Refusal :=
  match i with
  | .scd nib => Sys2Proof.Machine.execScd nib s
  | .cls => Sys2Proof.Machine.execCls s
  | .ret => Sys2Proof.Machine.execRet s
  | .scr => Sys2Proof.Machine.execScr s
  | .scl => Sys2Proof.Machine.execScl s
  | .exit => Sys2Proof.Machine.execExit s
  | .low => Sys2Proof.Machine.execLow s
  | .high => Sys2Proof.Machine.execHigh s
  | .sys addr => Sys2Proof.Machine.execSys addr s
  | .jump addr => Sys2Proof.Machine.execJump addr s
  | .call addr => Sys2Proof.Machine.execCall addr s
  | .skipEqImm x imm => Sys2Proof.Machine.execSkipEqImm x imm s
  | .skipNeqImm x imm => Sys2Proof.Machine.execSkipNeqImm x imm s
  | .skipEqReg x y => Sys2Proof.Machine.execSkipEqReg x y s
  | .loadImm x imm => Sys2Proof.Machine.execLoadImm x imm s
  | .addImm x imm => Sys2Proof.Machine.execAddImm x imm s
  | .loadReg x y => Sys2Proof.Machine.execLoadReg x y s
  | .or x y => Sys2Proof.Machine.execOr x y s
  | .and x y => Sys2Proof.Machine.execAnd x y s
  | .xor x y => Sys2Proof.Machine.execXor x y s
  | .addReg x y => Sys2Proof.Machine.execAddReg x y s
  | .sub x y => Sys2Proof.Machine.execSub x y s
  | .shr x => Sys2Proof.Machine.execShr x s
  | .subNeg x y => Sys2Proof.Machine.execSubNeg x y s
  | .shl x => Sys2Proof.Machine.execShl x s
  | .skipNeqReg x y => Sys2Proof.Machine.execSkipNeqReg x y s
  | .loadAddr addr => Sys2Proof.Machine.execLoadAddr addr s
  | .jumpAddrPlusV0 addr => Sys2Proof.Machine.execJumpAddrPlusV0 addr s
  | .randModImm x imm => Sys2Proof.Machine.execRandModImm x imm s
  | .draw x y nib => Sys2Proof.Machine.execDraw x y nib s
  | .skipKey x => Sys2Proof.Machine.execSkipKey x s
  | .skipNotKey x => Sys2Proof.Machine.execSkipNotKey x s
  | .loadRegDelay x => Sys2Proof.Machine.execLoadRegDelay x s
  | .waitKey x => Sys2Proof.Machine.execWaitKey x s
  | .loadDelayReg x => Sys2Proof.Machine.execLoadDelayReg x s
  | .loadSoundReg x => Sys2Proof.Machine.execLoadSoundReg x s
  | .addAddrReg x => Sys2Proof.Machine.execAddAddrReg x s
  | .loadAddrDigit x => Sys2Proof.Machine.execLoadAddrDigit x s
  | .loadAddrBigDigit x => Sys2Proof.Machine.execLoadAddrBigDigit x s
  | .memStoreBcd x => Sys2Proof.Machine.execMemStoreBcd x s
  | .memStoreRegs x => Sys2Proof.Machine.execMemStoreRegs x s
  | .memLoadRegs x => Sys2Proof.Machine.execMemLoadRegs x s
  | .rplStoreRegs x => Sys2Proof.Machine.execRplStoreRegs x s
  | .rplLoadRegs x => Sys2Proof.Machine.execRplLoadRegs x s

end Sys2Proof.Machine
end

