-- ==== Sys2Proof/Machine/HostEvents.lean ====
section
/-! DEFINITION. The host's events between steps and the host's reads (60_exceptions.md R235–R239, 70 R262, 43 R175).
None of them looks at `POWER`. -/

namespace Sys2Proof.Machine

/-- One timer under one `tick`: one less while above 0, never below (R20, R235). -/
def countDown (t : Byte) : Byte := if t.toNat > 0 then t - 1 else t

/-- `tick()`: one event acts on both timers (R235). -/
def tick (s : State) : State := { s with dt := countDown s.dt, st := countDown s.st }

/-- `key_pressed(code)` (R238). -/
def pressKey (code : Fin 16) (s : State) : State := { s with key := s.key.set code.val true }

/-- `key_released(code)` (R238). -/
def releaseKey (code : Fin 16) (s : State) : State := { s with key := s.key.set code.val false }

/-- `load_rom(b)`: the image copied to 0x200 on, at most once and before the first `step`; an image of more than
3584 bytes fails with memory unchanged (R262; log entries 6 and 23). -/
def loadRom (image : List Byte) (s : State) : Outcome :=
  if s.romOpen then
    if image.length > Config.romMax then raise .romTooLarge { s with romOpen := false }
    else .next { s with mem := s.mem.writeMany Config.romBase image, romOpen := false, returned := none }
  else .refused .romLoadNotOffered

/-- The display snapshot the host reads: `HIRES` and the effective window, row by row (R175). -/
def snapshot (s : State) : Bool × List (List Bool) :=
  (s.hires, (s.fb.toList.take (effHeight s.hires)).map
    (fun row => (List.range (effWidth s.hires)).map (fun c => row.getLsbD c)))

/-- A read of the sound timer between events (R239). -/
def soundTimer (s : State) : Byte := s.st

/-- The values a sound-timer read may return when it coincides with an event that takes the machine from one state
to the next: the old or the new one, whole (R21, R239; log entry 20). -/
def soundTimerDuring (before after : State) : List Byte := [before.st, after.st]

end Sys2Proof.Machine
end

