-- ==== Sys2Proof/Machine/Sequencer.lean ====
section
/-! DEFINITION. The sequencer (60_exceptions.md R225) and the choice of the next event (00_scope.md R5). -/

namespace Sys2Proof.Machine

/-- What the host sees when it issues a `step`: no error returned yet, and no `load_rom` from now on (log entries
5 and 6). -/
def State.beginStep (s : State) : State := { s with romOpen := false, returned := none }

/-- The core's `step`: power check, fetch, decode, advance, execute; both early `InvalidOpcode` exits leave `PC`
where it was (R225). -/
def coreStep (s : State) : Outcome :=
  match s.power with
  | .halted => .next s
  | .running =>
    match fetchInstr s.mem s.pc.toNat with
    | none => raise .invalidOpcode s
    | some (hi, lo) =>
      match decode (joinBytes hi lo) with
      | none => raise .invalidOpcode s
      | some i => exec i s.advance

/-- One event of the host, applied whole (R5). -/
def applyEvent (e : HostEvent) (s : State) : Outcome :=
  match e with
  | .step => coreStep s.beginStep
  | .tick => .next (tick s)
  | .keyPressed code => .next (pressKey code s)
  | .keyReleased code => .next (releaseKey code s)
  | .loadRom image => loadRom image s

/-- A free move of the host as an event (R5, R236, R238). -/
def HostMove.toEvent : HostMove → HostEvent
  | .step => .step
  | .tick => .tick
  | .keyPressed code => .keyPressed code
  | .keyReleased code => .keyReleased code

/-- The host's next event, and the state that has taken it: the head of the schedule, else a free move (R5, R236,
R238; log entry 1). -/
def takeEvent (s : State) : HostEvent × State :=
  match s.schedule with
  | e :: rest => (e, { s with schedule := rest })
  | [] => ((Config.hostMove s.moves).toEvent, { s with moves := s.moves + 1 })

/-- One machine step: a `WaitKey` in progress has the provider to itself, since no host event is applied while it
blocks (R192; log entry 22); otherwise the host's next event happens (log entry 1). -/
def nextEvent (s : State) : Outcome :=
  match s.waiting with
  | some x => continueKeyWait x s
  | none => applyEvent (takeEvent s).1 (takeEvent s).2

end Sys2Proof.Machine
end

