-- ==== Sys2Proof/Safety.lean ====
section
/-! DEFINITION. What counts as a good state and how a run stands (10_state.md R13–R15, 60_exceptions.md R242). -/

namespace Sys2Proof.Machine

/-- The invariant of every reachable state: memory in canonical form, `PC <= 0x1002` (R13), `I <= 0xFFF` (R14),
`SP <= 16` (R15), every stack slot a possible return address (R12, R13, R17), and a `WaitKey` in progress only in
the Running state (R241), its `PC` at most 0x1000. -/
structure State.Inv (s : State) : Prop where
  memory : s.mem.wf = true
  pc : s.pc.toNat ≤ 0x1002
  index : s.i.toNat ≤ 0xFFF
  sp : s.sp.toNat ≤ 16
  stack : ∀ k : Fin 16, s.stack[k.val].toNat ≤ 0x1000
  waiting : s.waiting ≠ none → s.power = .running ∧ s.pc.toNat ≤ 0x1000

/-- How a run stands (R242; log entry 26). -/
inductive RunStatus where
  /-- `POWER = 0` and no step has failed. -/
  | ended
  /-- A step (or `load_rom`) returned an error, or reached `Unspecified`. -/
  | faulted
  /-- Neither: it is still going. -/
  | going
  /-- The schedule held a move the host does not have (R262). -/
  | refused
deriving DecidableEq, Repr

/-- How a run stands after `k` further machine steps from `s`, given whether a step has failed before. -/
def runStatus : Nat → Bool → State → RunStatus
  | 0, failed, s => if failed then .faulted else if s.power = .halted then .ended else .going
  | k + 1, failed, s =>
    match step s with
    | .next t => runStatus k (failed || t.returned.isSome) t
    | .fault _ => .faulted
    | .refused _ => .refused

end Sys2Proof.Machine
end

