-- ==== Sys2Proof/Certificates/Slice0/Obligations.lean ====
section
/-! DEFINITION. The statements for the provers. Each says what an instruction or the machine does in a reader's own
terms (natural-number arithmetic, cells, registers by index), and its frame: `t = { s with f := t.f, … }` says that
no field of State but the named ones differs, free and host-side fields included. Every per-instruction statement
speaks of `exec`, whose state has `PC` already advanced (60_exceptions.md R225); `StepRunsDecodedInstruction` carries
them to a step. -/

namespace Sys2Proof.Claims

open Sys2Proof Sys2Proof.Machine

/-! ## Words, written by arithmetic from R84 -/

/-- `op a a a`. -/
def wordAddr (op : Nat) (addr : Addr12) : Word16 := BitVec.ofNat 16 (op * 4096 + addr.toNat)

/-- `op x i i`. -/
def wordXImm (op : Nat) (x : RegIndex) (imm : Byte) : Word16 := BitVec.ofNat 16 (op * 4096 + x.val * 256 + imm.toNat)

/-- `op x f f` with a fixed function byte. -/
def wordX (op : Nat) (x : RegIndex) (function : Nat) : Word16 := BitVec.ofNat 16 (op * 4096 + x.val * 256 + function)

/-- `op x y n`. -/
def wordXYN (op : Nat) (x y : RegIndex) (n : Nat) : Word16 :=
  BitVec.ofNat 16 (op * 4096 + x.val * 256 + y.val * 16 + n)

/-- The word a fetch at `PC` reads, high byte first (R46, R49). -/
def wordAtPc (s : State) : Word16 :=
  BitVec.ofNat 16 (256 * (s.mem.read s.pc.toNat).toNat + (s.mem.read (s.pc.toNat + 1)).toNat)

/-! ## Frames -/

/-- Every byte of memory reads as before. -/
def SameMemory (s t : State) : Prop := ∀ a, t.mem.read a = s.mem.read a

/-- No field but the general registers differs, no register but those of `w`, and no byte of memory. -/
def OnlyRegs (w : RegIndex → Prop) (s t : State) : Prop :=
  t = { s with v := t.v } ∧ (∀ r, ¬ w r → t.reg r = s.reg r) ∧ SameMemory s t

/-- No field but `PC` differs, and no byte of memory. -/
def OnlyPc (s t : State) : Prop := t = { s with pc := t.pc } ∧ (∀ r, t.reg r = s.reg r) ∧ SameMemory s t

/-- No field but `I` differs, and no byte of memory. -/
def OnlyIndex (s t : State) : Prop := t = { s with i := t.i } ∧ (∀ r, t.reg r = s.reg r) ∧ SameMemory s t

/-- No field but the framebuffer differs, and no byte of memory. -/
def OnlyDisplay (s t : State) : Prop := t = { s with fb := t.fb } ∧ (∀ r, t.reg r = s.reg r) ∧ SameMemory s t

/-- The instruction fails with the error: it is a fault under `HOST_ON_FAULT = stop`, and under `continue` the step
returns the error to the host with nothing else changed (R222, R223, R231). The split on the policy and the error in
hand are the model's (log entries 4 and 5). -/
def Raises (i : Instr) (s : State) (e : Fault) : Prop :=
  (s.onFault = .stop → exec i s = .fault e) ∧
  (s.onFault = .goOn → exec i s = .next { s with returned := some e })

/-- The instruction fails with the fault in some state that R15 allows. The fault is the outcome under `stop` (log
entry 4). -/
def CanFail (i : Instr) (e : Fault) : Prop := ∃ s : State, s.sp.toNat ≤ 16 ∧ exec i s = .fault e

/-! ## The host's side -/

/-- With no `WaitKey` in progress, the host's next event is `e`, and `u` is the state once it is taken: the head of the
schedule or, the schedule used up, a free move of the host (log entry 1). -/
def Issues (s : State) (e : HostEvent) (u : State) : Prop :=
  s.waiting = none ∧
  ((∃ rest, s.schedule = e :: rest ∧ u = { s with schedule := rest }) ∨
   (s.schedule = [] ∧ (Config.hostMove s.moves).toEvent = e ∧ u = { s with moves := s.moves + 1 }))

/-- The provider's next answer to a `WaitKey` in progress is `a`, and `u` is the state once it is taken: the head of
the listed answers or, these used up, a free answer (log entry 2). -/
def Answers (s : State) (a : KeyAnswer) (u : State) : Prop :=
  (∃ rest, s.keyAnswers = a :: rest ∧ u = { s with keyAnswers := rest }) ∨
  (s.keyAnswers = [] ∧ Config.keyAnswer s.asks = some a ∧ u = { s with asks := s.asks + 1 })

/-- `t` is the state after `k` machine steps from `s`. -/
def After : Nat → State → State → Prop
  | 0, s, t => t = s
  | k + 1, s, t => ∃ u, step s = .next u ∧ After k u t

/-! ## The display, cell by cell -/

/-- The effective width and height (R24). -/
def ew (s : State) : Nat := if s.hires = true then 128 else 64
def eh (s : State) : Nat := if s.hires = true then 64 else 32

/-- Some 1 bit of a small sprite drawn at `(x0, y0)` falls on the cell (R162). -/
def SmallCovers (s : State) (x0 y0 : Nat) (b : List Byte) (row : Fin 64) (col : Fin 128) : Prop :=
  ∃ j k : Nat, j < b.length ∧ k < 8 ∧ (b.getD j 0).getLsbD (7 - k) = true ∧
    row.val = (y0 + j) % eh s ∧ col.val = (x0 + k) % ew s

/-- Some 1 bit of a 16×16 sprite drawn at `(x0, y0)` falls on the cell: byte `2j` is the left half of row `j`, byte
`2j + 1` the right half (R163). -/
def LargeCovers (s : State) (x0 y0 : Nat) (b : List Byte) (row : Fin 64) (col : Fin 128) : Prop :=
  ∃ j k : Nat, j < 16 ∧ k < 16 ∧ (b.getD (2 * j + k / 8) 0).getLsbD (7 - k % 8) = true ∧
    row.val = (y0 + j) % eh s ∧ col.val = (x0 + k) % ew s

/-- The `n` bytes of memory at `I`. -/
def bytesAtIndex (s : State) (n : Nat) : List Byte := (List.range n).map (fun k => s.mem.read (s.i.toNat + k))

/-- What a successful `Draw` does, given which cells the sprite covers: a covered cell is inverted, every other cell
keeps its value, VF says whether a covered cell was lit, and nothing else changes. -/
def DrawnWith (covers : Fin 64 → Fin 128 → Prop) (s t : State) : Prop :=
  (∀ row col, covers row col → t.fb.cell row col = !s.fb.cell row col) ∧
  (∀ row col, ¬ covers row col → t.fb.cell row col = s.fb.cell row col) ∧
  (∀ row col, eh s ≤ row.val ∨ ew s ≤ col.val → t.fb.cell row col = s.fb.cell row col) ∧
  ((∃ row col, covers row col ∧ s.fb.cell row col = true) → (t.reg 15).toNat = 1) ∧
  ((∀ row col, covers row col → s.fb.cell row col = false) → (t.reg 15).toNat = 0) ∧
  (∀ r, r ≠ 15 → t.reg r = s.reg r) ∧
  t = { s with v := t.v, fb := t.fb } ∧ SameMemory s t

/-- The bytes of a block stored at `I` read back, every other byte of memory reads as before, and nothing but memory
differs. The address stored to is `I` as the instruction finds it. -/
def StoredAtIndex (bs : List Byte) (s t : State) : Prop :=
  (∀ k, k < bs.length → t.mem.read (s.i.toNat + k) = bs.getD k 0) ∧
  (∀ a, a < s.i.toNat ∨ s.i.toNat + bs.length ≤ a → t.mem.read a = s.mem.read a) ∧
  t = { s with mem := t.mem } ∧ (∀ r, t.reg r = s.reg r)

end Sys2Proof.Claims

open Sys2Proof Sys2Proof.Machine Sys2Proof.Claims

/-! # Encoding -/

/-- Decoding an encoded well-formed instruction gives it back, as a word and as bytes with anything behind them
(30_encoding.md R84, R70). The patterns are those of the model (log entry 7). That Shr and Shl encode with y = 0 is
decision D17 (log entry 30). -/
def Obligations.DecodeInvertsEncode : Prop :=
  ∀ i : Instr, i.WellFormed →
    decode (encode i) = some i ∧ ∀ rest, decodeBytes (encodeBytes i ++ rest) = .ok (i, rest)

/-- A word that decodes is the encoding of what it decodes to, but that `Shr` and `Shl` ignore bits 7–4 (R77, R84).
The patterns are those of the model (log entry 7). That Shr and Shl decode from any y is decision D17 (log entry 30). -/
def Obligations.EncodeInvertsDecode : Prop :=
  ∀ (w : Word16) (i : Instr), decode w = some i →
    i.WellFormed ∧
    ((∀ x, i ≠ .shr x ∧ i ≠ .shl x) → encode i = w) ∧
    ((∃ x, i = .shr x ∨ i = .shl x) → encode i = w &&& 0xFF0F)

/-- The decoder gives every word the name that the first matching row of the opcode table gives it, and none when no
row matches (R74, opcode_table.json). Forty of the rows are general knowledge (log entry 7). -/
def Obligations.DecoderFollowsOpcodeTable : Prop :=
  ∀ w : Word16, (decode w).map Instr.mnemonic = tableMnemonic w

/-- The invalid words are exactly the five kinds of R80. These patterns rest on decisions D2 and D3 (log entry 7).
That a shift word is valid for any y is D17 (log entry 30). -/
def Obligations.InvalidWordsAreExactlyFiveKinds : Prop :=
  ∀ w : Word16, decode w = none ↔
    (w.toNat / 4096 = 0x5 ∧ w.toNat % 16 ≠ 0) ∨
    (w.toNat / 4096 = 0x8 ∧ w.toNat % 16 ∈ [0x8, 0x9, 0xA, 0xB, 0xC, 0xD, 0xF]) ∨
    (w.toNat / 4096 = 0x9 ∧ w.toNat % 16 ≠ 0) ∨
    (w.toNat / 4096 = 0xE ∧ w.toNat % 256 ∉ [0x9E, 0xA1]) ∨
    (w.toNat / 4096 = 0xF ∧
      w.toNat % 256 ∉ [0x07, 0x0A, 0x15, 0x18, 0x1E, 0x29, 0x30, 0x33, 0x55, 0x65, 0x75, 0x85])

/-- Every pattern of R75–R79, with every operand at every value, decodes to its operation and operands. Forty of the
patterns are the spec's own, from general knowledge (log entry 7). The low nibble of families 5 and 9 is decision D3,
`Sys` as the rest of family 0 is D4 (both log entry 7). -/
def Obligations.EveryPatternDecodesToItsOperands : Prop :=
  (∀ nib : Nibble, decode (BitVec.ofNat 16 (0x00C0 + nib.toNat)) = some (.scd nib)) ∧
  (decode 0x00E0 = some .cls ∧ decode 0x00EE = some .ret ∧ decode 0x00FB = some .scr ∧ decode 0x00FC = some .scl ∧
    decode 0x00FD = some .exit ∧ decode 0x00FE = some .low ∧ decode 0x00FF = some .high) ∧
  (∀ addr : Addr12,
    (isSpecialAddr addr = false → decode (wordAddr 0x0 addr) = some (.sys addr)) ∧
    decode (wordAddr 0x1 addr) = some (.jump addr) ∧ decode (wordAddr 0x2 addr) = some (.call addr) ∧
    decode (wordAddr 0xA addr) = some (.loadAddr addr) ∧ decode (wordAddr 0xB addr) = some (.jumpAddrPlusV0 addr)) ∧
  (∀ (x : RegIndex) (imm : Byte),
    decode (wordXImm 0x3 x imm) = some (.skipEqImm x imm) ∧ decode (wordXImm 0x4 x imm) = some (.skipNeqImm x imm) ∧
    decode (wordXImm 0x6 x imm) = some (.loadImm x imm) ∧ decode (wordXImm 0x7 x imm) = some (.addImm x imm) ∧
    decode (wordXImm 0xC x imm) = some (.randModImm x imm)) ∧
  (∀ x y : RegIndex,
    decode (wordXYN 0x5 x y 0x0) = some (.skipEqReg x y) ∧ decode (wordXYN 0x9 x y 0x0) = some (.skipNeqReg x y) ∧
    decode (wordXYN 0x8 x y 0x0) = some (.loadReg x y) ∧ decode (wordXYN 0x8 x y 0x1) = some (.or x y) ∧
    decode (wordXYN 0x8 x y 0x2) = some (.and x y) ∧ decode (wordXYN 0x8 x y 0x3) = some (.xor x y) ∧
    decode (wordXYN 0x8 x y 0x4) = some (.addReg x y) ∧ decode (wordXYN 0x8 x y 0x5) = some (.sub x y) ∧
    decode (wordXYN 0x8 x y 0x6) = some (.shr x) ∧ decode (wordXYN 0x8 x y 0x7) = some (.subNeg x y) ∧
    decode (wordXYN 0x8 x y 0xE) = some (.shl x) ∧
    ∀ nib : Nibble, decode (wordXYN 0xD x y nib.toNat) = some (.draw x y nib)) ∧
  (∀ x : RegIndex,
    decode (wordX 0xE x 0x9E) = some (.skipKey x) ∧ decode (wordX 0xE x 0xA1) = some (.skipNotKey x) ∧
    decode (wordX 0xF x 0x07) = some (.loadRegDelay x) ∧ decode (wordX 0xF x 0x0A) = some (.waitKey x) ∧
    decode (wordX 0xF x 0x15) = some (.loadDelayReg x) ∧ decode (wordX 0xF x 0x18) = some (.loadSoundReg x) ∧
    decode (wordX 0xF x 0x1E) = some (.addAddrReg x) ∧ decode (wordX 0xF x 0x29) = some (.loadAddrDigit x) ∧
    decode (wordX 0xF x 0x30) = some (.loadAddrBigDigit x) ∧ decode (wordX 0xF x 0x33) = some (.memStoreBcd x) ∧
    decode (wordX 0xF x 0x55) = some (.memStoreRegs x) ∧ decode (wordX 0xF x 0x65) = some (.memLoadRegs x) ∧
    decode (wordX 0xF x 0x75) = some (.rplStoreRegs x) ∧ decode (wordX 0xF x 0x85) = some (.rplLoadRegs x))

/-- A sanity check: the source's four encodings (R82: 0xD1F3, 0x00E0, 0xF530, 0x6025) and five words of the spec's
test vectors decode as listed. The outcome of those five is the spec's own choice from general knowledge, no encoding
of the source (log entry 7, PRESUMED): 0x0000 is `Sys(0)` by D4, 0x5121 is invalid by D3, and 0x8AB6, 0xE19E and
0xF090 follow the customary map of D2. That 0x8AB6 is valid with y = 11 is D17 (log entry 30). -/
def Obligations.SampleWordsDecode : Prop :=
  decode 0xD1F3 = some (.draw 1 15 3) ∧ decode 0x00E0 = some .cls ∧ decode 0xF530 = some (.loadAddrBigDigit 5) ∧
  decode 0x6025 = some (.loadImm 0 0x25) ∧ decode 0x0000 = some (.sys 0) ∧ decode 0x8AB6 = some (.shr 10) ∧
  decode 0x5121 = none ∧ decode 0xE19E = some (.skipKey 1) ∧ decode 0xF090 = none

/-! # The step and the host's events -/

/-- The step runs the decoded instruction: with a core `step` next, the machine Running and the word at `PC` decoding
to `i`, the machine step is `exec i` at the state whose `PC` is past the word; around it the event is taken,
`load_rom` is closed and no error is returned yet (R225; log entries 1, 5, 6). That a fetch at 0xFFE succeeds is
decision D6 (log entry 14), and that an odd `PC` is legal is D21 (log entry 29). -/
def Obligations.StepRunsDecodedInstruction : Prop :=
  ∀ (s u : State) (i : Instr), Issues s .step u → s.power = .running →
    s.pc.toNat ≤ 0xFFE → decode (wordAtPc s) = some i →
    step s = exec i { u with romOpen := false, returned := none, pc := s.pc + 2 }

/-- The core's `step()` clause by clause: halted, it succeeds with nothing read or written; a fetch that is
impossible or a word that decodes to nothing is `InvalidOpcode` with `PC` unchanged; else `PC` advances by 2 and the
decoded operation is executed (R225). The split on the host's policy and the error in its hand are the model's (log
entries 4 and 5); that a fetch at 0xFFE succeeds is decision D6 (log entry 14). That an odd `PC` is legal is D21 (log
entry 29). -/
def Obligations.SequencerFetchesDecodesAdvancesExecutes : Prop :=
  ∀ s : State,
    (s.power = .halted → coreStep s = .next s) ∧
    (s.power = .running → (0xFFF ≤ s.pc.toNat ∨ decode (wordAtPc s) = none) →
      (s.onFault = .stop → coreStep s = .fault .invalidOpcode) ∧
      (s.onFault = .goOn → ∃ t, coreStep s = .next t ∧ t.returned = some .invalidOpcode ∧ t.pc = s.pc)) ∧
    (∀ i, s.power = .running → s.pc.toNat ≤ 0xFFE → decode (wordAtPc s) = some i →
      coreStep s = exec i { s with pc := s.pc + 2 })

/-- A fetch past 0xFFE, or a word that decodes to nothing, fails the step with `InvalidOpcode` and leaves `PC` where
it was (R225, R223 (a); log entries 1, 4, 5, 6; D6, log entry 14). That an odd `PC` is legal is D21 (log entry 29). -/
def Obligations.FetchOrDecodeFailureKeepsPc : Prop :=
  ∀ s u : State, Issues s .step u → s.power = .running →
    (0xFFF ≤ s.pc.toNat ∨ decode (wordAtPc s) = none) →
    (s.onFault = .stop → step s = .fault .invalidOpcode) ∧
    (s.onFault = .goOn → step s = .next { u with romOpen := false, returned := some .invalidOpcode })

/-- A core `step` of a halted machine succeeds and does nothing (R225, R241; log entries 1, 5, 6). -/
def Obligations.HaltedStepDoesNothing : Prop :=
  ∀ s u : State, Issues s .step u → s.power = .halted →
    step s = .next { u with romOpen := false, returned := none }

/-- Halted is terminal: whatever event comes next, the machine stays halted and nothing of the core moves but the
timers and the key latch (R25, R241, R235, R238), memory included once `load_rom` is closed. That the timers and the
latch still move is decision D16 (log entry 22); `waiting`, `keyAnswers`, `asks`, `draws` and `romOpen` are the
model's own fields (log entries 2, 3 and 6). -/
def Obligations.HaltedIsTerminal : Prop :=
  ∀ s t : State, s.Inv → s.power = .halted → step s = .next t →
    t.power = .halted ∧ t.v = s.v ∧ t.i = s.i ∧ t.pc = s.pc ∧ t.sp = s.sp ∧ t.stack = s.stack ∧ t.rpl = s.rpl ∧
    t.fb = s.fb ∧ t.hires = s.hires ∧ t.waiting = none ∧ t.keyAnswers = s.keyAnswers ∧ t.asks = s.asks ∧ t.draws = s.draws ∧
    (s.romOpen = false → SameMemory s t)

/-- One `tick` lowers each timer by one, never below zero, in either power state, and touches nothing else (R20, R21,
R235; that it acts when halted is decision D16, log entry 22). How the event comes next, and never during a `WaitKey`
(D20), is log entries 1 and 22. -/
def Obligations.TickLowersBothTimers : Prop :=
  ∀ s u : State, Issues s .tick u →
    ∃ t, step s = .next t ∧ t.dt.toNat = s.dt.toNat - 1 ∧ t.st.toNat = s.st.toNat - 1 ∧
      t = { u with dt := t.dt, st := t.st }

/-- A key event sets or clears the latch of its key and touches nothing else, in either power state (R22, R238; log
entry 22). How the event comes next is log entry 1; that a code is below 16 is entry 28. -/
def Obligations.KeyEventsWriteTheLatch : Prop :=
  ∀ (s u : State) (code : Fin 16),
    (Issues s (.keyPressed code) u → ∃ t, step s = .next t ∧
      (∀ k : Fin 16, t.key[k.val] = if k = code then true else s.key[k.val]) ∧ t = { u with key := t.key }) ∧
    (Issues s (.keyReleased code) u → ∃ t, step s = .next t ∧
      (∀ k : Fin 16, t.key[k.val] = if k = code then false else s.key[k.val]) ∧ t = { u with key := t.key })

/-- `load_rom` copies an image of at most 3584 bytes to 0x200 on and touches nothing else of the core; a longer one
fails with memory unchanged; once closed it is refused (R262; the refusal and the closing are decision D25, log
entries 6 and 23). How the event comes next is log entry 1, the form of a failure entries 4 and 5, canonical memory
entry 10. -/
def Obligations.LoadRomCopiesTheImage : Prop :=
  ∀ (s u : State) (image : List Byte), s.mem.wf = true → Issues s (.loadRom image) u →
    (s.romOpen = true → image.length ≤ 3584 → ∃ t, step s = .next t ∧
      (∀ k, k < image.length → t.mem.read (0x200 + k) = image.getD k 0) ∧
      (∀ a, a < 0x200 ∨ 0x200 + image.length ≤ a → t.mem.read a = s.mem.read a) ∧
      t = { u with romOpen := false, returned := none, mem := t.mem }) ∧
    (s.romOpen = true → 3584 < image.length →
      (s.onFault = .stop → step s = .fault .romTooLarge) ∧
      (s.onFault = .goOn → step s = .next { u with romOpen := false, returned := some .romTooLarge })) ∧
    (s.romOpen = false → step s = .refused .romLoadNotOffered)

/-- A `WaitKey` in progress has the machine to itself: while the provider is silent nothing but its own count moves,
an answer completes it, and no host event is taken meanwhile (R192, R193, R270; log entries 2 and 22). The form of a
failure is log entries 4 and 5; that an answer is below 16 is D22 (entry 28); that no event is taken meanwhile is D20
(entry 22). -/
def Obligations.WaitKeyInProgressBlocks : Prop :=
  ∀ (s : State) (x : RegIndex), s.waiting = some x →
    (s.keyAnswers = [] → Config.keyAnswer s.asks = none → step s = .next { s with asks := s.asks + 1 }) ∧
    (∀ c u, Answers s (.code c) u → ∃ t, step s = .next t ∧ (t.reg x).toNat = c.val ∧
      (∀ r, r ≠ x → t.reg r = s.reg r) ∧ t = { u with v := t.v, waiting := none }) ∧
    (∀ m u, Answers s (.failure m) u →
      (s.onFault = .stop → step s = .fault (.unknown m)) ∧
      (s.onFault = .goOn → step s = .next { u with waiting := none, returned := some (.unknown m) }))

/-- What reset leaves (R260). The zero stack slots and the zero bytes above the font are decision D13 (log entry 9);
the font bytes are not stated. -/
def Obligations.ResetLeavesDocumentedValues : Prop :=
  (∀ r, State.reset.reg r = 0) ∧ State.reset.i = 0 ∧ State.reset.pc.toNat = 0x200 ∧ State.reset.sp = 0 ∧
  (∀ k : Fin 16, State.reset.stack[k.val] = 0) ∧ (∀ k : Fin 8, State.reset.rpl[k.val] = 0) ∧
  State.reset.dt = 0 ∧ State.reset.st = 0 ∧ (∀ k : Fin 16, State.reset.key[k.val] = false) ∧
  (∀ row col, State.reset.fb.cell row col = false) ∧ State.reset.hires = false ∧ State.reset.power = .running ∧
  (∀ a, 80 ≤ a → State.reset.mem.read a = 0)

/-- The invariant holds at reset. Canonical memory is log entry 10, the `WaitKey` in progress entry 2; the bounds of
`PC` and of the slots rest on D6 (entry 14). -/
def Obligations.ResetSatisfiesInvariant : Prop := State.reset.Inv

/-- Every event keeps the invariant, from every state that has it: memory in canonical form, `PC` at most 0x1002
(R13), `I` at most 0xFFF (R14), `SP` in 0..16 (R15), stack slots that can be return addresses, and a `WaitKey` in
progress only while Running (R241). Canonical memory is log entry 10, the `WaitKey` in progress entry 2; the bounds
of `PC` and of the slots rest on D6 (entry 14). -/
def Obligations.EveryStepKeepsInvariant : Prop :=
  ∀ s t : State, s.Inv → step s = .next t → t.Inv

/-- The display snapshot is `HIRES` and the effective window, hidden cells left out (R175). -/
def Obligations.SnapshotIsTheEffectiveWindow : Prop :=
  ∀ s : State, (snapshot s).1 = s.hires ∧ (snapshot s).2.length = eh s ∧
    (∀ row ∈ (snapshot s).2, row.length = ew s) ∧
    ∀ (row : Fin 64) (col : Fin 128), row.val < eh s → col.val < ew s →
      ((snapshot s).2.getD row.val []).getD col.val false = s.fb.cell row col

/-- Equal memories are equal data: two canonical memories that read the same at every address are the same list (the
model's own form; log entry 10). -/
def Obligations.CanonicalMemoriesThatReadAlikeAreEqual : Prop :=
  ∀ m m' : Memory, m.wf = true → m'.wf = true → (∀ a, m.read a = m'.read a) → m = m'

/-- The memory's ports check their range before any byte moves: the single-byte ports fail from 4096 on, the block read
from `addr + n = 4096` on; in range they move exactly the bytes asked for (R42, R43, R44). That a write keeps memory in
canonical form is the model's own (log entry 10), and so is the empty block `n = 0`, which the spec never asks for. -/
def Obligations.MemoryPortsCheckTheirRange : Prop :=
  ∀ (m : Memory) (addr n : Nat) (b : Byte), m.wf = true →
    (addr < 4096 → memReadByte m addr = .ok (m.read addr) ∧
      ∃ m', memWriteByte m addr b = .ok m' ∧ m'.read addr = b ∧ (∀ a, a ≠ addr → m'.read a = m.read a) ∧
        m'.wf = true) ∧
    (4096 ≤ addr → memReadByte m addr = .error .addressOutOfRange ∧
      memWriteByte m addr b = .error .addressOutOfRange) ∧
    (addr + n < 4096 → ∃ bs, memRead m addr n = .ok bs ∧ bs.length = n ∧
      ∀ k, k < n → bs.getD k 0 = m.read (addr + k)) ∧
    (4096 ≤ addr + n → memRead m addr n = .error .addressOutOfRange)

/-! # Control transfer -/

/-- `Sys` and `Jump` load `PC` with the address and do nothing else (R100, R101). -/
def Obligations.SysAndJumpLoadPc : Prop :=
  ∀ (s : State) (addr : Addr12), ∀ i ∈ [Instr.sys addr, Instr.jump addr],
    ∃ t, exec i s = .next t ∧ t.pc.toNat = addr.toNat ∧ OnlyPc s t

/-- `JumpAddrPlusV0` goes to `(addr + V0) mod 0x1000` (R102). -/
def Obligations.JumpAddrPlusV0WrapsAtTheTopOfMemory : Prop :=
  ∀ (s : State) (addr : Addr12), ∃ t, exec (.jumpAddrPlusV0 addr) s = .next t ∧
    t.pc.toNat = (addr.toNat + (s.reg 0).toNat) % 4096 ∧ OnlyPc s t

/-- `Call` pushes the address after itself and jumps; with sixteen entries it fails and pushes nothing (R103, R17;
the stack's layout is decision D29, log entry 24). The form of a failure is log entries 4 and 5. -/
def Obligations.CallPushesReturnAddressOrOverflows : Prop :=
  ∀ (s : State) (addr : Addr12),
    (s.sp.toNat < 16 → ∃ t, exec (.call addr) s = .next t ∧ t.pc.toNat = addr.toNat ∧
      t.sp.toNat = s.sp.toNat + 1 ∧
      (∀ k : Fin 16, t.stack[k.val] = if k.val = s.sp.toNat then s.pc else s.stack[k.val]) ∧
      (∀ r, t.reg r = s.reg r) ∧ t = { s with pc := t.pc, sp := t.sp, stack := t.stack } ∧ SameMemory s t) ∧
    (s.sp.toNat = 16 → Raises (.call addr) s .stackOverflow)

/-- `Ret` pops the newest entry into `PC`, leaves every slot as it is and restores nothing else; with no entry it
fails (R104, R18; the stack's layout is decision D29, log entry 24). The form of a failure is log entries 4 and 5. -/
def Obligations.RetPopsIntoPcOrUnderflows : Prop :=
  ∀ s : State,
    (∀ k : Fin 16, s.sp.toNat = k.val + 1 → ∃ t, exec .ret s = .next t ∧ t.pc = s.stack[k.val] ∧
      t.sp.toNat = k.val ∧ (∀ r, t.reg r = s.reg r) ∧ t = { s with pc := t.pc, sp := t.sp } ∧ SameMemory s t) ∧
    (s.sp.toNat = 0 → Raises .ret s .stackUnderflow)

/-- A `Call` and the `Ret` that matches it bring `PC` and `SP` back, with whatever the subroutine did to the rest of
the machine in between (R17, R18: `pop(push(v)) == v`). That the two name the same slot is decision D29 (log entry
24). -/
def Obligations.RetReturnsAfterTheCall : Prop :=
  ∀ (addr : Addr12) (s t u : State), s.sp.toNat < 16 → exec (.call addr) s = .next t →
    u.sp = t.sp → u.stack = t.stack →
    ∃ z, exec .ret u = .next z ∧ z.pc = s.pc ∧ z.sp = s.sp ∧ z = { u with pc := z.pc, sp := z.sp }

/-- The four register and immediate skips advance `PC` once more iff their condition holds (R105–R108; the conditions
are read from the names, decision D28, log entry 24). Where `PC` is above 0xFFFD, which no run reaches, `+ 2` wraps
at 16 bits (log entry 15). -/
def Obligations.SkipsAdvancePcOnTheirCondition : Prop :=
  ∀ (s : State) (x y : RegIndex) (imm : Byte),
    (∃ t, exec (.skipEqImm x imm) s = .next t ∧ OnlyPc s t ∧
      (s.reg x = imm → t.pc = s.pc + 2) ∧ (s.reg x ≠ imm → t.pc = s.pc)) ∧
    (∃ t, exec (.skipNeqImm x imm) s = .next t ∧ OnlyPc s t ∧
      (s.reg x ≠ imm → t.pc = s.pc + 2) ∧ (s.reg x = imm → t.pc = s.pc)) ∧
    (∃ t, exec (.skipEqReg x y) s = .next t ∧ OnlyPc s t ∧
      (s.reg x = s.reg y → t.pc = s.pc + 2) ∧ (s.reg x ≠ s.reg y → t.pc = s.pc)) ∧
    (∃ t, exec (.skipNeqReg x y) s = .next t ∧ OnlyPc s t ∧
      (s.reg x ≠ s.reg y → t.pc = s.pc + 2) ∧ (s.reg x = s.reg y → t.pc = s.pc))

/-- `Exit` halts the machine and changes nothing else; after any number of machine steps it is still halted, and every
core `step` then changes nothing and succeeds (R109; what a step changes on the host's side is the model's, log
entries 1, 5, 6). -/
def Obligations.ExitHaltsForGood : Prop :=
  ∀ s : State, ∃ t, exec .exit s = .next t ∧ t.power = .halted ∧ t = { s with power := .halted } ∧
    (∀ r, t.reg r = s.reg r) ∧ SameMemory s t ∧
    ∀ k u, After k t u → u.power = .halted ∧
      ∀ u', Issues u .step u' → step u = .next { u' with romOpen := false, returned := none }

/-! # Loads and moves -/

/-- `LoadImm`, the word `6xii`, gives `V[x]` the immediate, VF like any register (R120; family 6 is the source's own
encoding, R82). -/
def Obligations.LoadImmAssigns : Prop :=
  ∀ (x : RegIndex) (imm : Byte), decode (wordXImm 0x6 x imm) = some (.loadImm x imm) ∧
    ∀ s : State, ∃ t, exec (.loadImm x imm) s = .next t ∧ t.reg x = imm ∧ OnlyRegs (fun r => r = x) s t

/-- `LoadAddr` gives `I` the address, whatever its value (R122). -/
def Obligations.LoadAddrSetsIndex : Prop :=
  ∀ (s : State) (addr : Addr12), ∃ t, exec (.loadAddr addr) s = .next t ∧ t.i.toNat = addr.toNat ∧ OnlyIndex s t

/-- `LoadAddrDigit` points `I` at `5 * V[x]` for a digit and fails for a value above 15 (R123; that the glyphs lie in
digit order is decision D26, log entry 8). The form of a failure is log entries 4 and 5. -/
def Obligations.LoadAddrDigitPointsAtTheGlyph : Prop :=
  ∀ (s : State) (x : RegIndex),
    ((s.reg x).toNat ≤ 15 → ∃ t, exec (.loadAddrDigit x) s = .next t ∧ t.i.toNat = 5 * (s.reg x).toNat ∧
      OnlyIndex s t) ∧
    (15 < (s.reg x).toNat → Raises (.loadAddrDigit x) s .invalidDigitSprite)

/-- `LoadAddrBigDigit` decodes and always fails with `InvalidOpcode`, after `PC` has advanced (R124, R226; decision
D5, log entry 13). The form of a failure is log entries 4 and 5. -/
def Obligations.LoadAddrBigDigitAlwaysFails : Prop :=
  ∀ (s : State) (x : RegIndex), Raises (.loadAddrBigDigit x) s .invalidOpcode

/-- `LoadReg` and the three timer moves (R121, R125–R127; the directions are read from the names and the other rows,
decision D28, log entry 24). -/
def Obligations.MovesCopyTheirByte : Prop :=
  ∀ (s : State) (x y : RegIndex),
    (∃ t, exec (.loadReg x y) s = .next t ∧ t.reg x = s.reg y ∧ OnlyRegs (fun r => r = x) s t) ∧
    (∃ t, exec (.loadRegDelay x) s = .next t ∧ t.reg x = s.dt ∧ OnlyRegs (fun r => r = x) s t) ∧
    (∃ t, exec (.loadDelayReg x) s = .next t ∧ t.dt = s.reg x ∧ t = { s with dt := t.dt } ∧
      (∀ r, t.reg r = s.reg r) ∧ SameMemory s t) ∧
    (∃ t, exec (.loadSoundReg x) s = .next t ∧ t.st = s.reg x ∧ t = { s with st := t.st } ∧
      (∀ r, t.reg r = s.reg r) ∧ SameMemory s t)

/-! # Arithmetic and logic -/

/-- `AddImm` adds modulo 256 and leaves every other register, VF included, alone (R142). -/
def Obligations.AddImmWrapsWithoutFlag : Prop :=
  ∀ (s : State) (x : RegIndex) (imm : Byte), ∃ t, exec (.addImm x imm) s = .next t ∧
    (t.reg x).toNat = ((s.reg x).toNat + imm.toNat) % 256 ∧ OnlyRegs (fun r => r = x) s t

/-- `AddAddrReg` adds to `I` modulo 0x1000 and leaves every register, VF included, alone (R143). For `I` above 0xFFF,
which no run reaches, the whole sum is reduced (log entry 15). -/
def Obligations.AddAddrRegWrapsAtTheAddressSpace : Prop :=
  ∀ (s : State) (x : RegIndex), ∃ t, exec (.addAddrReg x) s = .next t ∧
    t.i.toNat = (s.i.toNat + (s.reg x).toNat) % 4096 ∧ OnlyIndex s t

/-- `Or`, `And`, `Xor` combine bit by bit into `V[x]` and leave every other register, VF included, alone
(R147–R149). -/
def Obligations.LogicCombinesBitByBit : Prop :=
  ∀ (s : State) (x y : RegIndex),
    (∃ t, exec (.or x y) s = .next t ∧ OnlyRegs (fun r => r = x) s t ∧
      ∀ k, (t.reg x).getLsbD k = ((s.reg x).getLsbD k || (s.reg y).getLsbD k)) ∧
    (∃ t, exec (.and x y) s = .next t ∧ OnlyRegs (fun r => r = x) s t ∧
      ∀ k, (t.reg x).getLsbD k = ((s.reg x).getLsbD k && (s.reg y).getLsbD k)) ∧
    (∃ t, exec (.xor x y) s = .next t ∧ OnlyRegs (fun r => r = x) s t ∧
      ∀ k, (t.reg x).getLsbD k = ((s.reg x).getLsbD k != (s.reg y).getLsbD k))

/-- `AddReg`: the sum modulo 256 into `V[x]`, then the carry into VF, which with `x = 15` is all that is left (R144;
the order of the two writes is decision D8, log entry 16). -/
def Obligations.AddRegSumsAndCarries : Prop :=
  ∀ (s : State) (x y : RegIndex), ∃ t, exec (.addReg x y) s = .next t ∧
    (x ≠ 15 → (t.reg x).toNat = ((s.reg x).toNat + (s.reg y).toNat) % 256) ∧
    (255 < (s.reg x).toNat + (s.reg y).toNat → (t.reg 15).toNat = 1) ∧
    ((s.reg x).toNat + (s.reg y).toNat ≤ 255 → (t.reg 15).toNat = 0) ∧
    OnlyRegs (fun r => r = x ∨ r = 15) s t

/-- `Sub` and `SubNeg`: the difference modulo 256 into `V[x]`, then VF = 1 iff the minuend is strictly greater (R145,
R146; write order as log entry 16). -/
def Obligations.SubtractionsBorrowStrictly : Prop :=
  ∀ (s : State) (x y : RegIndex),
    (∃ t, exec (.sub x y) s = .next t ∧
      (x ≠ 15 → (t.reg x).toNat = ((s.reg x).toNat + 256 - (s.reg y).toNat) % 256) ∧
      ((s.reg y).toNat < (s.reg x).toNat → (t.reg 15).toNat = 1) ∧
      ((s.reg x).toNat ≤ (s.reg y).toNat → (t.reg 15).toNat = 0) ∧ OnlyRegs (fun r => r = x ∨ r = 15) s t) ∧
    (∃ t, exec (.subNeg x y) s = .next t ∧
      (x ≠ 15 → (t.reg x).toNat = ((s.reg y).toNat + 256 - (s.reg x).toNat) % 256) ∧
      ((s.reg x).toNat < (s.reg y).toNat → (t.reg 15).toNat = 1) ∧
      ((s.reg y).toNat ≤ (s.reg x).toNat → (t.reg 15).toNat = 0) ∧ OnlyRegs (fun r => r = x ∨ r = 15) s t)

/-- `Shr` and `Shl` move `V[x]` by one place and give VF the bit shifted out; with `x = 15` the flag is written first
and then shifted: 0 for `Shr`, twice the old bit 7 for `Shl` (R150, R151; write order as log entry 16). -/
def Obligations.ShiftsMoveOnePlace : Prop :=
  ∀ (s : State) (x : RegIndex),
    (∃ t, exec (.shr x) s = .next t ∧ OnlyRegs (fun r => r = x ∨ r = 15) s t ∧
      (x ≠ 15 → (t.reg x).toNat = (s.reg x).toNat / 2 ∧ (t.reg 15).toNat = (s.reg x).toNat % 2) ∧
      (x = 15 → (t.reg 15).toNat = 0)) ∧
    (∃ t, exec (.shl x) s = .next t ∧ OnlyRegs (fun r => r = x ∨ r = 15) s t ∧
      (x ≠ 15 → (t.reg x).toNat = (s.reg x).toNat * 2 % 256 ∧ (t.reg 15).toNat = (s.reg x).toNat / 128) ∧
      (x = 15 → (t.reg 15).toNat = 2 * ((s.reg x).toNat / 128)))

/-- `RandModImm` gives `V[x]` a free byte modulo `imm + 1`, so at most `imm`, and draws exactly one byte (R152; the
byte is a free value, log entry 3). That `imm + 1` does not wrap at 8 bits is decision D9 (log entry 3). -/
def Obligations.RandModImmStaysWithinImm : Prop :=
  ∀ (s : State) (x : RegIndex) (imm : Byte), ∃ t, exec (.randModImm x imm) s = .next t ∧
    (t.reg x).toNat = (Config.randomByte s.draws).toNat % (imm.toNat + 1) ∧ (t.reg x).toNat ≤ imm.toNat ∧
    (∀ r, r ≠ x → t.reg r = s.reg r) ∧ t = { s with v := t.v, draws := s.draws + 1 } ∧ SameMemory s t

/-! # Display -/

/-- `Cls` darkens every cell of the effective window and leaves every hidden cell, and nothing else changes (R168,
R160). -/
def Obligations.ClsClearsTheWindowOnly : Prop :=
  decode 0x00E0 = some .cls ∧
  ∀ s : State, ∃ t, exec .cls s = .next t ∧
    (∀ row col, row.val < eh s → col.val < ew s → t.fb.cell row col = false) ∧
    (∀ row col, eh s ≤ row.val ∨ ew s ≤ col.val → t.fb.cell row col = s.fb.cell row col) ∧ OnlyDisplay s t

/-- `Draw` with `nib` in 1..15 XORs the `nib` sprite rows at `I` into the window at `(V[x], V[y])`, wrapping at its
edges, and VF reports an erased pixel (R169, R161, R162, R164; that VF is written last is decision D19, log entry
16). So with `x = 15` or `y = 15` the old VF is the coordinate. The bound on the block is D7 (log entry 14). -/
def Obligations.DrawXorsTheSmallSprite : Prop :=
  ∀ (s : State) (x y : RegIndex) (nib : Nibble), nib.toNat ≠ 0 → s.i.toNat + nib.toNat < 4096 →
    ∃ t, exec (.draw x y nib) s = .next t ∧
      DrawnWith (SmallCovers s (s.reg x).toNat (s.reg y).toNat (bytesAtIndex s nib.toNat)) s t

/-- `Draw` with `nib = 0` XORs the 16×16 sprite of 32 bytes at `I`, in both display modes (R169, R163; the byte order
and the modes are decisions D23 and D24, log entry 18). That VF is written last, so that with `x = 15` or `y = 15`
the old VF is the coordinate, is D19 (log entry 16); the bound on the block is D7 (log entry 14). -/
def Obligations.DrawXorsTheLargeSprite : Prop :=
  ∀ (s : State) (x y : RegIndex), s.i.toNat + 32 < 4096 →
    ∃ t, exec (.draw x y 0) s = .next t ∧
      DrawnWith (LargeCovers s (s.reg x).toNat (s.reg y).toNat (bytesAtIndex s 32)) s t

/-- Drawing the same sprite again at the same place brings the picture back, and when the first drawing erased
nothing the second reports an erasure iff the first changed the picture. VF must be no coordinate (the source's
display example, 43_display.md R169). Under `stop` a next state is a drawing that succeeded (log entry 4). -/
def Obligations.DrawTwiceRestoresThePicture : Prop :=
  ∀ (s t : State) (x y : RegIndex) (nib : Nibble), x ≠ 15 → y ≠ 15 → s.onFault = .stop →
    exec (.draw x y nib) s = .next t →
    ∃ u, exec (.draw x y nib) t = .next u ∧ u.fb = s.fb ∧
      ((t.reg 15).toNat = 0 → ((u.reg 15).toNat = 1 ↔ t.fb ≠ s.fb))

/-- `Scd(n)` moves every row of the buffer down by `n` and darkens the top `n`, hidden cells included, in both modes
(R170, R165). -/
def Obligations.ScdMovesEveryRowDown : Prop :=
  ∀ (s : State) (nib : Nibble), ∃ t, exec (.scd nib) s = .next t ∧ OnlyDisplay s t ∧
    (∀ row col, row.val < nib.toNat → t.fb.cell row col = false) ∧
    (∀ row row' col, row.val = row'.val + nib.toNat → t.fb.cell row col = s.fb.cell row' col)

/-- `Scr` and `Scl` move every column of the buffer by four and darken the vacated edge, hidden cells included, in
both modes (R171, R172, R166, R167; the whole buffer is decision D11, log entry 18). -/
def Obligations.HorizontalScrollsMoveFourColumns : Prop :=
  ∀ s : State,
    (∃ t, exec .scr s = .next t ∧ OnlyDisplay s t ∧ (∀ row col, col.val < 4 → t.fb.cell row col = false) ∧
      (∀ row col col', col.val = col'.val + 4 → t.fb.cell row col = s.fb.cell row col')) ∧
    (∃ t, exec .scl s = .next t ∧ OnlyDisplay s t ∧ (∀ row col, 124 ≤ col.val → t.fb.cell row col = false) ∧
      (∀ row col col', col'.val = col.val + 4 → t.fb.cell row col = s.fb.cell row col'))

/-- `Low` and `High` change the resolution flag and nothing else; no cell is cleared or moved (R173, R174). -/
def Obligations.LowAndHighChangeTheFlagOnly : Prop :=
  ∀ s : State,
    (∃ t, exec .low s = .next t ∧ ew t = 64 ∧ eh t = 32 ∧ t = { s with hires := false } ∧
      (∀ row col, t.fb.cell row col = s.fb.cell row col) ∧ (∀ r, t.reg r = s.reg r) ∧ SameMemory s t) ∧
    (∃ t, exec .high s = .next t ∧ ew t = 128 ∧ eh t = 64 ∧ t = { s with hires := true } ∧
      (∀ row col, t.fb.cell row col = s.fb.cell row col) ∧ (∀ r, t.reg r = s.reg r) ∧ SameMemory s t)

/-! # Keyboard -/

/-- The two key skips test the latch of the key `V[x]` names (R190, R191); above 15 the step is the model-level fault
`Unspecified` (R227; decision D10, log entry 12). Where `PC` is above 0xFFFD, which no run reaches, `+ 2` wraps at 16
bits (log entry 15). -/
def Obligations.KeySkipsTestTheLatch : Prop :=
  ∀ (s : State) (x : RegIndex),
    (∀ k : Fin 16, (s.reg x).toNat = k.val →
      (∃ t, exec (.skipKey x) s = .next t ∧ OnlyPc s t ∧
        (s.key[k.val] = true → t.pc = s.pc + 2) ∧ (s.key[k.val] = false → t.pc = s.pc)) ∧
      (∃ t, exec (.skipNotKey x) s = .next t ∧ OnlyPc s t ∧
        (s.key[k.val] = false → t.pc = s.pc + 2) ∧ (s.key[k.val] = true → t.pc = s.pc))) ∧
    (15 < (s.reg x).toNat →
      exec (.skipKey x) s = .fault .unspecified ∧ exec (.skipNotKey x) s = .fault .unspecified)

/-- `WaitKey` gives `V[x]` the provider's code and uses up that answer; a failure is `Unknown` with its text; with no
listed answer the step stays in progress and writes no register, and `WaitKeyInProgressBlocks` says how it goes on
(R192, R193; log entries 2 and 28). The form of a failure is log entries 4 and 5; that the latch is not touched is
decision D22 (log entry 28). -/
def Obligations.WaitKeyTakesTheProvidersAnswer : Prop :=
  ∀ (s : State) (x : RegIndex), s.waiting = none →
    (∀ c rest, s.keyAnswers = .code c :: rest → ∃ t, exec (.waitKey x) s = .next t ∧ (t.reg x).toNat = c.val ∧
      (∀ r, r ≠ x → t.reg r = s.reg r) ∧ t = { s with v := t.v, keyAnswers := rest } ∧ SameMemory s t) ∧
    (∀ m rest, s.keyAnswers = .failure m :: rest →
      (s.onFault = .stop → exec (.waitKey x) s = .fault (.unknown m)) ∧
      (s.onFault = .goOn →
        exec (.waitKey x) s = .next { s with keyAnswers := rest, returned := some (.unknown m) })) ∧
    (s.keyAnswers = [] → exec (.waitKey x) s = .next { s with waiting := some x })

/-! # Memory blocks and the RPL file -/

/-- `MemStoreBcd` stores hundreds, tens and ones of `V[x]` at `I`, `I+1`, `I+2` (R201; the bound is decision D7, log
entry 14). Canonical memory is the model's own form (log entry 10). -/
def Obligations.MemStoreBcdStoresThreeDigits : Prop :=
  ∀ (s : State) (x : RegIndex), s.mem.wf = true → s.i.toNat + 3 < 4096 →
    ∃ t, exec (.memStoreBcd x) s = .next t ∧
      StoredAtIndex [BitVec.ofNat 8 ((s.reg x).toNat / 100), BitVec.ofNat 8 ((s.reg x).toNat / 10 % 10),
        BitVec.ofNat 8 ((s.reg x).toNat % 10)] s t

/-- `MemStoreRegs` stores `V[0]` to `V[x]` inclusive at `I` on (R202; bound as log entry 14). Canonical memory is the
model's own form (log entry 10). -/
def Obligations.MemStoreRegsStoresThroughVx : Prop :=
  ∀ (s : State) (x : RegIndex), s.mem.wf = true → s.i.toNat + x.val + 1 < 4096 →
    ∃ t, exec (.memStoreRegs x) s = .next t ∧
      (∀ k : RegIndex, k.val ≤ x.val → t.mem.read (s.i.toNat + k.val) = s.reg k) ∧
      (∀ a, a < s.i.toNat ∨ s.i.toNat + x.val + 1 ≤ a → t.mem.read a = s.mem.read a) ∧
      t = { s with mem := t.mem } ∧ (∀ r, t.reg r = s.reg r)

/-- `MemLoadRegs` loads `V[0]` to `V[x]` inclusive from `I` on and leaves the other registers (R203; bound as log
entry 14). The bound is decision D7. -/
def Obligations.MemLoadRegsLoadsThroughVx : Prop :=
  ∀ (s : State) (x : RegIndex), s.i.toNat + x.val + 1 < 4096 →
    ∃ t, exec (.memLoadRegs x) s = .next t ∧
      (∀ k : RegIndex, k.val ≤ x.val → t.reg k = s.mem.read (s.i.toNat + k.val)) ∧
      OnlyRegs (fun r => r.val ≤ x.val) s t

/-- A block that would reach address 0xFFF or pass it fails as a whole: nothing is stored, loaded or drawn (R44, R45,
R200, R223; decision D7, log entry 14). That a failing `Draw` leaves VF is D19 (log entry 16). The form of a failure
is log entries 4 and 5. -/
def Obligations.BlocksPastTheBoundFail : Prop :=
  ∀ (s : State) (x y : RegIndex) (nib : Nibble),
    (4096 ≤ s.i.toNat + 3 → Raises (.memStoreBcd x) s .addressOutOfRange) ∧
    (4096 ≤ s.i.toNat + x.val + 1 → Raises (.memStoreRegs x) s .addressOutOfRange) ∧
    (4096 ≤ s.i.toNat + x.val + 1 → Raises (.memLoadRegs x) s .addressOutOfRange) ∧
    (nib.toNat ≠ 0 → 4096 ≤ s.i.toNat + nib.toNat → Raises (.draw x y nib) s .addressOutOfRange) ∧
    (nib.toNat = 0 → 4096 ≤ s.i.toNat + 32 → Raises (.draw x y nib) s .addressOutOfRange)

/-- Registers stored by `MemStoreRegs` come back by `MemLoadRegs` with the same `I`, whatever happened to the
registers in between (45_memory_ops.md R202, R203; bound as log entry 14). Canonical memory is the model's own form
(log entry 10). -/
def Obligations.StoredRegistersLoadBack : Prop :=
  ∀ (s t u : State) (x : RegIndex), s.mem.wf = true → s.i.toNat + x.val + 1 < 4096 →
    exec (.memStoreRegs x) s = .next t → u.mem = t.mem → u.i = t.i →
    ∃ z, exec (.memLoadRegs x) u = .next z ∧ ∀ k : RegIndex, k.val ≤ x.val → z.reg k = s.reg k

/-- `RplStoreRegs` and `RplLoadRegs` move `x` registers, `V[0]` to `V[x-1]`, for `x` up to 8, and fail for `x` above
8 with the index (R205–R207; that `x` is a count is decision D12, log entry 17). The form of a failure is log entries
4 and 5. -/
def Obligations.RplPairMovesXRegisters : Prop :=
  ∀ (s : State) (x : RegIndex),
    (x.val ≤ 8 →
      (∃ t, exec (.rplStoreRegs x) s = .next t ∧
        (∀ k : Fin 8, t.rpl[k.val] = if k.val < x.val then s.reg (k.castLE (Nat.le_add_left 8 8)) else s.rpl[k.val]) ∧
        t = { s with rpl := t.rpl } ∧ (∀ r, t.reg r = s.reg r) ∧ SameMemory s t) ∧
      (∃ t, exec (.rplLoadRegs x) s = .next t ∧
        (∀ k : Fin 8, k.val < x.val → t.reg (k.castLE (Nat.le_add_left 8 8)) = s.rpl[k.val]) ∧
        OnlyRegs (fun r => r.val < x.val) s t)) ∧
    (8 < x.val → Raises (.rplStoreRegs x) s (.registerOutOfRange x) ∧
      Raises (.rplLoadRegs x) s (.registerOutOfRange x))

/-- Registers saved in the RPL file come back with the same `x`, whatever happened to them in between (R207: "succeed
and round-trip"; log entry 17). -/
def Obligations.RplRoundTripRestoresRegisters : Prop :=
  ∀ (s t u : State) (x : RegIndex), x.val ≤ 8 → exec (.rplStoreRegs x) s = .next t → u.rpl = t.rpl →
    ∃ z, exec (.rplLoadRegs x) u = .next z ∧ ∀ k : RegIndex, k.val < x.val → z.reg k = s.reg k

/-! # Whole-machine rules -/

/-- Each register of the table of R26, the stack, the RPL file, the display and memory change only by the
instructions the spec lists as their writers (R10–R25, R51), each general register only by an instruction that names
it as a destination, by a block that reaches it or, for VF, by one that writes the flag; no instruction writes the
key latch (R22). That `Ret` keeps the slot is decision D29 (log entry 24), the reach of the RPL block D12 (log entry
17). The directions of the timer moves are D28 (log entry 24), that `WaitKey` leaves the latch is D22 (log entry 28),
that `LoadAddrBigDigit` writes nothing is D5 (log entry 13), and `waiting` is the model's own field (log entry 2). -/
def Obligations.OnlyListedInstructionsWriteEachState : Prop :=
  ∀ (i : Instr) (s t : State), exec i s = .next t →
    (∀ r, t.reg r ≠ s.reg r →
      (∃ n, i = .loadImm r n) ∨ (∃ y, i = .loadReg r y) ∨ (∃ n, i = .addImm r n) ∨
      (∃ y, i = .or r y ∨ i = .and r y ∨ i = .xor r y) ∨ (∃ n, i = .randModImm r n) ∨
      i = .loadRegDelay r ∨ i = .waitKey r ∨
      (∃ x y, (i = .addReg x y ∨ i = .sub x y ∨ i = .subNeg x y) ∧ (r = x ∨ r = 15)) ∨
      (∃ x, (i = .shr x ∨ i = .shl x) ∧ (r = x ∨ r = 15)) ∨ (∃ x y n, i = .draw x y n ∧ r = 15) ∨
      (∃ x, i = .memLoadRegs x ∧ r.val ≤ x.val) ∨ (∃ x, i = .rplLoadRegs x ∧ r.val < x.val)) ∧
    (t.i ≠ s.i → (∃ a, i = .loadAddr a) ∨ (∃ x, i = .addAddrReg x) ∨ (∃ x, i = .loadAddrDigit x)) ∧
    (t.sp ≠ s.sp → (∃ a, i = .call a) ∨ i = .ret) ∧
    (t.stack ≠ s.stack → ∃ a, i = .call a) ∧
    (t.rpl ≠ s.rpl → ∃ x, i = .rplStoreRegs x) ∧
    (t.dt ≠ s.dt → ∃ x, i = .loadDelayReg x) ∧
    (t.st ≠ s.st → ∃ x, i = .loadSoundReg x) ∧
    t.key = s.key ∧
    (t.fb ≠ s.fb → i = .cls ∨ (∃ x y n, i = .draw x y n) ∨ (∃ n, i = .scd n) ∨ i = .scr ∨ i = .scl) ∧
    (t.hires ≠ s.hires → i = .low ∨ i = .high) ∧
    (t.power ≠ s.power → i = .exit) ∧
    (t.waiting ≠ s.waiting → ∃ x, i = .waitKey x) ∧
    (t.mem ≠ s.mem → (∃ x, i = .memStoreBcd x) ∨ (∃ x, i = .memStoreRegs x)) ∧
    (t.pc ≠ s.pc → (∃ a, i = .sys a) ∨ (∃ a, i = .jump a) ∨ (∃ a, i = .jumpAddrPlusV0 a) ∨ (∃ a, i = .call a) ∨
      i = .ret ∨ (∃ x n, i = .skipEqImm x n) ∨ (∃ x n, i = .skipNeqImm x n) ∨ (∃ x y, i = .skipEqReg x y) ∨
      (∃ x y, i = .skipNeqReg x y) ∨ (∃ x, i = .skipKey x) ∨ (∃ x, i = .skipNotKey x))

/-- Exactly the eleven operations of R221 can fail, each with its one kind: a fault comes from one of them and has
its kind, and each of them fails in some state whatever its operands (the RPL pair for `x` above 8, decision D12, log
entry 17). Besides them there is the model-level fault of the two key skips (R227, D10, log entry 12), and no
instruction is refused. That `LoadAddrBigDigit` is one of the eleven is decision D5 (log entry 13); `SP <= 16` is the
invariant of R15. The outcome fault is the policy `stop` (log entry 4). -/
def Obligations.OnlyElevenOperationsFail : Prop :=
  (∀ (i : Instr) (s : State), s.sp.toNat ≤ 16 →
    (∀ r, exec i s ≠ .refused r) ∧
    ∀ e, exec i s = .fault e →
      ((∃ a, i = .call a) ∧ e = .stackOverflow) ∨ (i = .ret ∧ e = .stackUnderflow) ∨
      ((∃ x, i = .loadAddrDigit x) ∧ e = .invalidDigitSprite) ∨
      ((∃ x, i = .loadAddrBigDigit x) ∧ e = .invalidOpcode) ∨
      (((∃ x y n, i = .draw x y n) ∨ (∃ x, i = .memStoreBcd x) ∨ (∃ x, i = .memStoreRegs x) ∨
        (∃ x, i = .memLoadRegs x)) ∧ e = .addressOutOfRange) ∨
      ((∃ x, i = .waitKey x) ∧ ∃ m, e = .unknown m) ∨
      (∃ x, (i = .rplStoreRegs x ∨ i = .rplLoadRegs x) ∧ e = .registerOutOfRange x) ∨
      (((∃ x, i = .skipKey x) ∨ (∃ x, i = .skipNotKey x)) ∧ e = .unspecified)) ∧
  (∀ a, CanFail (.call a) .stackOverflow) ∧ CanFail .ret .stackUnderflow ∧
  (∀ x y n, CanFail (.draw x y n) .addressOutOfRange) ∧
  ∀ x, CanFail (.loadAddrDigit x) .invalidDigitSprite ∧ CanFail (.loadAddrBigDigit x) .invalidOpcode ∧
    CanFail (.memStoreBcd x) .addressOutOfRange ∧ CanFail (.memStoreRegs x) .addressOutOfRange ∧
    CanFail (.memLoadRegs x) .addressOutOfRange ∧ (∀ m, CanFail (.waitKey x) (.unknown m)) ∧
    (8 < x.val → CanFail (.rplStoreRegs x) (.registerOutOfRange x) ∧
      CanFail (.rplLoadRegs x) (.registerOutOfRange x)) ∧
    CanFail (.skipKey x) .unspecified ∧ CanFail (.skipNotKey x) .unspecified

/-- Errors are precise: where an instruction fails under `HOST_ON_FAULT = stop` with an error of the hardware, under
`continue` the same instruction in the same state returns the same error with every piece of the core's state as it
was, `PC` advanced as `exec` found it; only the provider's answer is used up (R222, R223 (b); log entries 4 and 5).
For the block stores it rests on D7 (log entry 14), for VF after a failed `Draw` on D19 (log entry 16); `Unspecified`
has no such form (D10, log entry 12). -/
def Obligations.FailedInstructionLeavesTheCoreUnchanged : Prop :=
  ∀ (i : Instr) (s : State) (e : Fault), s.waiting = none → s.onFault = .stop → e ≠ .unspecified →
    exec i s = .fault e →
    ∃ t, exec i { s with onFault := .goOn } = .next t ∧
      t = { s with onFault := .goOn, returned := some e, keyAnswers := t.keyAnswers } ∧
      ((∀ x, i ≠ .waitKey x) → t.keyAnswers = s.keyAnswers)
end

