-- ==== Sys2Proof/Laws/Fields.lean ====
section
/-! SUPPORT. The fields of the words the encoder forms (30_encoding.md R71, R84), and the round trip of a register
index through its four bits. -/

namespace Sys2Proof

@[simp] theorem regBits_toFin (x : RegIndex) : (regBits x).toFin = x := rfl

@[simp] theorem regBits_toNat (x : RegIndex) : (regBits x).toNat = x.val := rfl

/-! ## `op a a a` -/

@[simp] theorem opField_formAddr (op : Nibble) (addr : Addr12) : opField (formAddr op addr) = op :=
  BitVec.extractLsb'_append_eq_left

@[simp] theorem addrField_formAddr (op : Nibble) (addr : Addr12) : addrField (formAddr op addr) = addr :=
  BitVec.extractLsb'_append_eq_right

/-! ## `op x i i` -/

@[simp] theorem opField_formXImm (op : Nibble) (x : RegIndex) (imm : Byte) : opField (formXImm op x imm) = op := by
  unfold opField formXImm
  rw [BitVec.extractLsb'_append_eq_of_le (by decide)]
  exact BitVec.extractLsb'_append_eq_left

@[simp] theorem xField_formXImm (op : Nibble) (x : RegIndex) (imm : Byte) : xField (formXImm op x imm) = x := by
  unfold xField formXImm
  rw [BitVec.extractLsb'_append_eq_of_le (by decide)]
  exact congrArg BitVec.toFin
    (BitVec.extractLsb'_append_eq_right : BitVec.extractLsb' 0 4 (op ++ regBits x) = regBits x)

@[simp] theorem immField_formXImm (op : Nibble) (x : RegIndex) (imm : Byte) : immField (formXImm op x imm) = imm :=
  BitVec.extractLsb'_append_eq_right

/-! ## `op x y n` -/

@[simp] theorem opField_formXYN (op : Nibble) (x y : RegIndex) (nib : Nibble) :
    opField (formXYN op x y nib) = op := by
  unfold opField formXYN
  rw [BitVec.extractLsb'_append_eq_of_le (by decide), BitVec.extractLsb'_append_eq_of_le (by decide)]
  exact BitVec.extractLsb'_append_eq_left

@[simp] theorem xField_formXYN (op : Nibble) (x y : RegIndex) (nib : Nibble) :
    xField (formXYN op x y nib) = x := by
  unfold xField formXYN
  rw [BitVec.extractLsb'_append_eq_of_le (by decide), BitVec.extractLsb'_append_eq_of_le (by decide)]
  exact congrArg BitVec.toFin
    (BitVec.extractLsb'_append_eq_right : BitVec.extractLsb' 0 4 (op ++ regBits x) = regBits x)

@[simp] theorem yField_formXYN (op : Nibble) (x y : RegIndex) (nib : Nibble) :
    yField (formXYN op x y nib) = y := by
  unfold yField formXYN
  rw [BitVec.extractLsb'_append_eq_of_le (by decide)]
  exact congrArg BitVec.toFin
    (BitVec.extractLsb'_append_eq_right : BitVec.extractLsb' 0 4 ((op ++ regBits x) ++ regBits y) = regBits y)

@[simp] theorem nibField_formXYN (op : Nibble) (x y : RegIndex) (nib : Nibble) :
    nibField (formXYN op x y nib) = nib :=
  BitVec.extractLsb'_append_eq_right

/-- A word split into its two bytes and joined again (R46, R49). -/
@[simp] theorem joinBytes_bytes (w : Word16) : joinBytes (highByte w) (lowByte w) = w := by
  apply BitVec.eq_of_getLsbD_eq
  intro k hk
  unfold joinBytes highByte lowByte
  rw [BitVec.getLsbD_append]
  by_cases h : k < 8
  · simp [h]
  · have : k - 8 < 8 := by omega
    have hk' : 8 + (k - 8) = k := by omega
    simp [h, this, hk']

end Sys2Proof
end

