-- ==== Sys2Proof/Laws/Framebuffer.lean ====
section
/-! SUPPORT. The display primitives cell by cell (43_display.md R160–R167). -/

namespace Sys2Proof.Machine

theorem effWidth_cases (hires : Bool) : effWidth hires = 64 ∨ effWidth hires = 128 := by
  cases hires <;> simp [effWidth]

theorem effHeight_cases (hires : Bool) : effHeight hires = 32 ∨ effHeight hires = 64 := by
  cases hires <;> simp [effHeight]

@[simp] theorem wrapCol_val (hires : Bool) (c : Nat) : (wrapCol hires c).val = c % effWidth hires := rfl
@[simp] theorem wrapRow_val (hires : Bool) (r : Nat) : (wrapRow hires r).val = r % effHeight hires := rfl

/-- Framebuffers that agree in every cell are equal. -/
theorem Framebuffer.ext_cell {f g : Framebuffer} (h : ∀ row col, f.cell row col = g.cell row col) : f = g := by
  apply Vector.ext
  intro r hr
  apply BitVec.eq_of_getLsbD_eq
  intro c hc
  exact h ⟨r, hr⟩ ⟨c, hc⟩

/-- XOR of a bit into one cell inverts that cell iff the bit is 1, and no other. -/
theorem Framebuffer.cell_xorCell (fb : Framebuffer) (row r : Fin 64) (col c : Fin 128) (bit : Bool) :
    (fb.xorCell row col bit).cell r c = (fb.cell r c ^^ (bit && decide (r = row) && decide (c = col))) := by
  unfold Framebuffer.xorCell
  cases bit with
  | false => simp
  | true =>
    simp only [if_true, Framebuffer.cell, Vector.getElem_set, Bool.true_and]
    by_cases hr : r = row
    · subst hr
      simp [Fin.ext_iff, eq_comm]
    · have hr' : row.val ≠ r.val := fun e => hr (Fin.ext e.symm)
      simp [hr, hr']

/-! ## Row maps: clear and the horizontal scrolls -/

theorem Framebuffer.mapRows_getElem (f : Nat → FbRow → FbRow) (fb : Framebuffer) (r : Nat) (hr : r < 64) :
    (fb.mapRows f)[r] = f r fb[r] := by
  simp [Framebuffer.mapRows]

/-- `clear()` darkens the effective window and leaves every hidden cell (R160). -/
theorem Framebuffer.cell_clear (hires : Bool) (fb : Framebuffer) (row : Fin 64) (col : Fin 128) :
    (fb.clear hires).cell row col =
      (if row.val < effHeight hires ∧ col.val < effWidth hires then false else fb.cell row col) := by
  unfold Framebuffer.clear Framebuffer.cell
  rw [Framebuffer.mapRows_getElem _ _ _ row.isLt]
  by_cases hr : row.val < effHeight hires
  · simp only [hr, if_true, true_and, darkenLeft, BitVec.getLsbD_and, BitVec.getLsbD_shiftLeft,
      BitVec.getLsbD_allOnes, col.isLt, decide_true, Bool.true_and]
    by_cases hc : col.val < effWidth hires
    · simp [hc]
    · have : col.val - effWidth hires < 128 := by omega
      simp [hc, this]
  · simp [hr]

/-- `scroll_down(n)` moves every cell `n` rows down; the top `n` rows are dark (R165). -/
theorem Framebuffer.cell_scrollDown (n : Nat) (fb : Framebuffer) (row : Fin 64) (col : Fin 128) :
    (fb.scrollDown n).cell row col =
      (if row.val < n then false else fb.cell ⟨row.val - n, by omega⟩ col) := by
  unfold Framebuffer.scrollDown Framebuffer.cell
  simp only [Vector.getElem_mk, List.getElem_toArray, List.getElem_take]
  by_cases h : row.val < n
  · rw [List.getElem_append_left (by simpa using h)]
    simp [h]
  · rw [List.getElem_append_right (by simpa using h)]
    simp [h]

/-- `scroll_right()` moves every cell four columns right; columns 0..3 are dark (R166). -/
theorem Framebuffer.cell_scrollRight (fb : Framebuffer) (row : Fin 64) (col : Fin 128) :
    fb.scrollRight.cell row col = (if col.val < 4 then false else fb.cell row ⟨col.val - 4, by omega⟩) := by
  unfold Framebuffer.scrollRight Framebuffer.cell
  rw [Framebuffer.mapRows_getElem _ _ _ row.isLt]
  by_cases h : col.val < 4
  · simp [Config.hScroll, h]
  · simp only [Config.hScroll, BitVec.getLsbD_shiftLeft, h, decide_false, Bool.not_false, Bool.and_true, if_false,
      col.isLt, decide_true, Bool.true_and]

/-- `scroll_left()` moves every cell four columns left; columns 124..127 are dark (R167). -/
theorem Framebuffer.cell_scrollLeft (fb : Framebuffer) (row : Fin 64) (col : Fin 128) :
    fb.scrollLeft.cell row col = (if h : col.val < 124 then fb.cell row ⟨col.val + 4, by omega⟩ else false) := by
  unfold Framebuffer.scrollLeft Framebuffer.cell
  rw [Framebuffer.mapRows_getElem _ _ _ row.isLt]
  by_cases h : col.val < 124
  · simp [Config.hScroll, h, Nat.add_comm]
  · have : 128 ≤ 4 + col.val := by omega
    simp [Config.hScroll, h, BitVec.getLsbD_of_ge _ _ this]

/-! ## The blitter -/

/-- Does the sprite byte at `(x0, row)` put a lit pixel on the cell? -/
def byteCovers (hires : Bool) (x0 row : Nat) (byte : Byte) (cs : List Nat) (r : Fin 64) (c : Fin 128) : Bool :=
  decide (r = wrapRow hires row) && cs.any (fun k => byte.getLsbD (7 - k) && decide (c = wrapCol hires (x0 + k)))

/-- Columns closer than the effective width stay apart when reduced (R162: "no cell is visited twice"). -/
theorem wrapCol_injective {hires : Bool} {x0 j k : Nat} (hj : j < 64) (hk : k < 64)
    (h : wrapCol hires (x0 + j) = wrapCol hires (x0 + k)) : j = k := by
  have h' := congrArg Fin.val h
  simp only [wrapCol_val] at h'
  obtain e | e := effWidth_cases hires <;> rw [e] at h' <;> omega

/-- Rows closer than the effective height stay apart when reduced. -/
theorem wrapRow_injective {hires : Bool} {y0 j k : Nat} (hj : j < 32) (hk : k < 32)
    (h : wrapRow hires (y0 + j) = wrapRow hires (y0 + k)) : j = k := by
  have h' := congrArg Fin.val h
  simp only [wrapRow_val] at h'
  obtain e | e := effHeight_cases hires <;> rw [e] at h' <;> omega

/-- A run of distinct pixels of one sprite byte: every cell XORed with what covers it, and whether a covered cell
was lit before. -/
theorem foldl_drawPixel (hires : Bool) (x0 row : Nat) (byte : Byte) (cs : List Nat) (hnd : cs.Nodup)
    (hlt : ∀ k ∈ cs, k < 64) (p : Blit) :
    (∀ r c, (cs.foldl (drawPixel hires x0 row byte) p).1.cell r c =
      (p.1.cell r c ^^ byteCovers hires x0 row byte cs r c)) ∧
    (cs.foldl (drawPixel hires x0 row byte) p).2 =
      (p.2 || cs.any (fun k => byte.getLsbD (7 - k) && p.1.cell (wrapRow hires row) (wrapCol hires (x0 + k)))) := by
  induction cs generalizing p with
  | nil => simp [byteCovers]
  | cons k cs ih =>
    obtain ⟨hk, hnd⟩ := List.nodup_cons.1 hnd
    have hlt' : ∀ j ∈ cs, j < 64 := fun j hj => hlt j (List.mem_cons_of_mem k hj)
    have hk64 : k < 64 := hlt k List.mem_cons_self
    have hne : ∀ j ∈ cs, wrapCol hires (x0 + j) ≠ wrapCol hires (x0 + k) := fun j hj e =>
      hk (wrapCol_injective (hlt' j hj) hk64 e ▸ hj)
    obtain ⟨ihc, ihe⟩ := ih hnd hlt' (drawPixel hires x0 row byte p k)
    constructor
    · intro r c
      rw [List.foldl_cons, ihc]
      simp only [drawPixel, Framebuffer.cell_xorCell, byteCovers, List.any_cons]
      by_cases hc : c = wrapCol hires (x0 + k)
      · have hno : cs.any (fun j => byte.getLsbD (7 - j) && decide (c = wrapCol hires (x0 + j))) = false := by
          rw [List.any_eq_false]
          intro j hj
          have := hne j hj
          rw [hc]
          simp [Ne.symm this]
        rw [hno]
        simp [hc, Bool.and_comm]
      · simp [hc]
    · rw [List.foldl_cons, ihe]
      have hsame : ∀ j ∈ cs,
          (byte.getLsbD (7 - j) &&
            (drawPixel hires x0 row byte p k).1.cell (wrapRow hires row) (wrapCol hires (x0 + j))) =
          (byte.getLsbD (7 - j) && p.1.cell (wrapRow hires row) (wrapCol hires (x0 + j))) := by
        intro j hj
        simp [drawPixel, Framebuffer.cell_xorCell, hne j hj]
      have hany : cs.any (fun j => byte.getLsbD (7 - j) &&
            (drawPixel hires x0 row byte p k).1.cell (wrapRow hires row) (wrapCol hires (x0 + j))) =
          cs.any (fun j => byte.getLsbD (7 - j) && p.1.cell (wrapRow hires row) (wrapCol hires (x0 + j))) := by
        rw [Bool.eq_iff_iff]
        simp only [List.any_eq_true]
        exact exists_congr fun j => and_congr_right fun hj => by rw [hsame j hj]
      rw [hany]
      simp [drawPixel, Bool.or_assoc]

/-- One sprite byte (R162). -/
theorem drawByte_spec (hires : Bool) (x0 row : Nat) (byte : Byte) (p : Blit) :
    (∀ r c, (drawByte hires x0 row byte p).1.cell r c =
      (p.1.cell r c ^^ byteCovers hires x0 row byte (List.range 8) r c)) ∧
    (drawByte hires x0 row byte p).2 =
      (p.2 || (List.range 8).any
        (fun k => byte.getLsbD (7 - k) && p.1.cell (wrapRow hires row) (wrapCol hires (x0 + k)))) :=
  foldl_drawPixel hires x0 row byte (List.range 8) List.nodup_range
    (fun k hk => by have := List.mem_range.1 hk; omega) p

/-- A sprite of at most 15 bytes is drawn, never refused (R162). -/
theorem drawSprite_ok {hires : Bool} {x0 y0 : Nat} {b : List Byte} {fb : Framebuffer} (h : b.length ≤ 15) :
    drawSprite hires x0 y0 b fb = .ok (drawRows hires x0 y0 b (fb, false)) := by
  have : ¬ b.length > 15 := by omega
  simp [drawSprite, Config.spriteMax, this]

/-- Does the sprite drawn at `(x0, y0)` put a lit pixel on the cell? -/
def rowsCover (hires : Bool) (x0 : Nat) : Nat → List Byte → Fin 64 → Fin 128 → Bool
  | _, [], _, _ => false
  | y0, b :: bs, r, c => byteCovers hires x0 y0 b (List.range 8) r c || rowsCover hires x0 (y0 + 1) bs r c

/-- A cell is covered iff some 1 bit of the sprite falls on it (R162). -/
theorem rowsCover_iff (hires : Bool) (x0 y0 : Nat) (b : List Byte) (r : Fin 64) (c : Fin 128) :
    rowsCover hires x0 y0 b r c = true ↔
      ∃ j k, ∃ h : j < b.length, k < 8 ∧ (b[j]'h).getLsbD (7 - k) = true ∧
        r = wrapRow hires (y0 + j) ∧ c = wrapCol hires (x0 + k) := by
  induction b generalizing y0 with
  | nil => simp [rowsCover]
  | cons a b ih =>
    simp only [rowsCover, Bool.or_eq_true, ih, byteCovers, Bool.and_eq_true, decide_eq_true_eq, List.any_eq_true,
      List.mem_range]
    constructor
    · rintro (⟨hr, k, hk, hbit, hc⟩ | ⟨j, k, hj, hk, hbit, hr, hc⟩)
      · exact ⟨0, k, Nat.succ_pos _, hk, hbit, hr, hc⟩
      · refine ⟨j + 1, k, Nat.succ_lt_succ hj, hk, hbit, ?_, hc⟩
        rw [hr]
        congr 1
        omega
    · rintro ⟨j, k, hj, hk, hbit, hr, hc⟩
      cases j with
      | zero => exact .inl ⟨hr, k, hk, hbit, hc⟩
      | succ j =>
        refine .inr ⟨j, k, Nat.lt_of_succ_lt_succ hj, hk, hbit, ?_, hc⟩
        rw [hr]
        congr 1
        omega

theorem byteCovers_row {hires : Bool} {x0 row : Nat} {byte : Byte} {cs : List Nat} {r : Fin 64} {c : Fin 128}
    (h : byteCovers hires x0 row byte cs r c = true) : r = wrapRow hires row := by
  simp only [byteCovers, Bool.and_eq_true, decide_eq_true_eq] at h
  exact h.1

/-- The whole small sprite: every cell XORed with what covers it, and the erase report (R162, R164). -/
theorem drawRows_spec (hires : Bool) (x0 y0 : Nat) (b : List Byte) (hb : b.length ≤ 32) (p : Blit) :
    (∀ r c, (drawRows hires x0 y0 b p).1.cell r c = (p.1.cell r c ^^ rowsCover hires x0 y0 b r c)) ∧
    ((drawRows hires x0 y0 b p).2 = true ↔
      p.2 = true ∨ ∃ r c, rowsCover hires x0 y0 b r c = true ∧ p.1.cell r c = true) := by
  induction b generalizing y0 p with
  | nil => simp [drawRows, rowsCover]
  | cons a b ih =>
    simp only [List.length_cons] at hb
    obtain ⟨hcell, herase⟩ := drawByte_spec hires x0 y0 a p
    obtain ⟨ihc, ihe⟩ := ih (y0 + 1) (by omega) (drawByte hires x0 y0 a p)
    have hdisjoint : ∀ r c, rowsCover hires x0 (y0 + 1) b r c = true →
        byteCovers hires x0 y0 a (List.range 8) r c = false := by
      intro r c h
      obtain ⟨j, k, hj, -, -, hr, -⟩ := (rowsCover_iff _ _ _ _ _ _).1 h
      by_contra hne
      have hr' := byteCovers_row (Bool.not_eq_false _ ▸ hne)
      have : wrapRow hires (y0 + 0) = wrapRow hires (y0 + (1 + j)) := by
        rw [← Nat.add_assoc, ← hr, Nat.add_zero, ← hr']
      have := wrapRow_injective (by omega) (by omega) this
      omega
    constructor
    · intro r c
      rw [drawRows, ihc, hcell]
      cases hc : rowsCover hires x0 (y0 + 1) b r c with
      | false => simp [rowsCover, hc]
      | true => simp [rowsCover, hc, hdisjoint r c hc]
    · rw [drawRows, ihe, herase]
      simp only [Bool.or_eq_true, List.any_eq_true, List.mem_range, Bool.and_eq_true, rowsCover, or_assoc]
      apply or_congr_right
      constructor
      · rintro (⟨k, hk, hbit, hlit⟩ | ⟨r, c, hcov, hlit⟩)
        · refine ⟨wrapRow hires y0, wrapCol hires (x0 + k), .inl ?_, hlit⟩
          simp only [byteCovers, Bool.and_eq_true, decide_eq_true_eq, List.any_eq_true, List.mem_range]
          exact ⟨trivial, k, hk, hbit, rfl⟩
        · refine ⟨r, c, .inr hcov, ?_⟩
          rw [hcell, hdisjoint r c hcov, Bool.xor_false] at hlit
          exact hlit
      · rintro ⟨r, c, hcov | hcov, hlit⟩
        · simp only [byteCovers, Bool.and_eq_true, decide_eq_true_eq, List.any_eq_true, List.mem_range] at hcov
          obtain ⟨hr, k, hk, hbit, hc⟩ := hcov
          exact .inl ⟨k, hk, hbit, by rw [← hr, ← hc]; exact hlit⟩
        · refine .inr ⟨r, c, hcov, ?_⟩
          rw [hcell, hdisjoint r c hcov, Bool.xor_false]
          exact hlit

/-! ## The 16×16 sprite (R163) -/

/-- Does the large sprite drawn at `(x0, y0)` put a lit pixel on the cell? -/
def largeCovers (hires : Bool) (x0 : Nat) : Nat → List Byte → Fin 64 → Fin 128 → Bool
  | y0, l :: r :: rest, row, col =>
    rowsCover hires x0 y0 [l] row col || rowsCover hires (x0 + 8) y0 [r] row col ||
      largeCovers hires x0 (y0 + 1) rest row col
  | _, _, _, _ => false

/-- A cell is covered iff some 1 bit of the 16 rows of two bytes falls on it: byte `2j` is the left half of row `j`
and byte `2j + 1` the right half (R163). -/
theorem largeCovers_iff (hires : Bool) (x0 n : Nat) :
    ∀ (y0 : Nat) (b : List Byte) (hb : b.length = 2 * n) (r : Fin 64) (c : Fin 128),
    (largeCovers hires x0 y0 b r c = true ↔
      ∃ j k, ∃ hj : j < n, ∃ hk : k < 16, (b[2 * j + k / 8]'(by omega)).getLsbD (7 - k % 8) = true ∧
        r = wrapRow hires (y0 + j) ∧ c = wrapCol hires (x0 + k)) := by
  induction n with
  | zero =>
    intro y0 b hb r c
    have : b = [] := List.length_eq_zero_iff.1 (by omega)
    subst this
    simp [largeCovers]
  | succ n ih =>
    intro y0 b hb r c
    match b, hb with
    | l :: g :: rest, hb =>
      have hrest : rest.length = 2 * n := by simp only [List.length_cons] at hb; omega
      simp only [largeCovers, Bool.or_eq_true, ih (y0 + 1) rest hrest, rowsCover_iff, List.length_singleton]
      constructor
      · rintro ((⟨j, k, hj, hk, hbit, hr, hc⟩ | ⟨j, k, hj, hk, hbit, hr, hc⟩) | ⟨j, k, hj, hk, hbit, hr, hc⟩)
        · obtain rfl : j = 0 := by omega
          refine ⟨0, k, Nat.succ_pos n, by omega, ?_, hr, hc⟩
          have h1 : k / 8 = 0 := by omega
          have h2 : k % 8 = k := by omega
          simpa [h1, h2] using hbit
        · obtain rfl : j = 0 := by omega
          refine ⟨0, k + 8, Nat.succ_pos n, by omega, ?_, hr, by rw [hc]; congr 1; omega⟩
          have h1 : (k + 8) / 8 = 1 := by omega
          have h2 : (k + 8) % 8 = k := by omega
          simpa [h1, h2] using hbit
        · refine ⟨j + 1, k, by omega, hk, ?_, by rw [hr]; congr 1; omega, hc⟩
          have h1 : 2 * (j + 1) + k / 8 = (2 * j + k / 8) + 1 + 1 := by omega
          simpa [h1] using hbit
      · rintro ⟨j, k, hj, hk, hbit, hr, hc⟩
        cases j with
        | zero =>
          refine .inl ?_
          by_cases h8 : k < 8
          · have h1 : k / 8 = 0 := by omega
            have h2 : k % 8 = k := by omega
            exact .inl ⟨0, k, by omega, h8, by simpa [h1, h2] using hbit, hr, hc⟩
          · have h1 : k / 8 = 1 := by omega
            have h2 : k % 8 = k - 8 := by omega
            refine .inr ⟨0, k - 8, by omega, by omega, by simpa [h1, h2] using hbit, hr, ?_⟩
            rw [hc]; congr 1; omega
        | succ j =>
          have h1 : 2 * (j + 1) + k / 8 = (2 * j + k / 8) + 1 + 1 := by omega
          refine .inr ⟨j, k, by omega, hk, by simpa [h1] using hbit, ?_, hc⟩
          rw [hr]; congr 1; omega

/-- Two sprite halves side by side put no lit pixel on the same cell. -/
theorem halves_disjoint {hires : Bool} {x0 y0 : Nat} {l g : Byte} {r : Fin 64} {c : Fin 128}
    (h : rowsCover hires (x0 + 8) y0 [g] r c = true) : rowsCover hires x0 y0 [l] r c = false := by
  by_contra hne
  obtain ⟨j, k, hj, hk, -, -, hc⟩ := (rowsCover_iff _ _ _ _ _ _).1 h
  obtain ⟨j', k', hj', hk', -, -, hc'⟩ := (rowsCover_iff _ _ _ _ _ _).1 (Bool.not_eq_false _ ▸ hne)
  have e : wrapCol hires (x0 + k') = wrapCol hires (x0 + (8 + k)) := by rw [← hc', hc, Nat.add_assoc]
  have := wrapCol_injective (by omega) (by omega) e
  omega

/-- A row of a large sprite and the rows below it put no lit pixel on the same cell. -/
theorem large_rows_disjoint {hires : Bool} {x0 y0 x n : Nat} {b : List Byte} {l : Byte} {r : Fin 64} {c : Fin 128}
    (hb : b.length = 2 * n) (hn : n < 32) (h : largeCovers hires x0 (y0 + 1) b r c = true) :
    rowsCover hires x y0 [l] r c = false := by
  by_contra hne
  obtain ⟨j, k, hj, hk, -, hr, -⟩ := (largeCovers_iff hires x0 n _ _ hb _ _).1 h
  obtain ⟨j', k', hj', hk', -, hr', -⟩ := (rowsCover_iff _ _ _ _ _ _).1 (Bool.not_eq_false _ ▸ hne)
  have e : wrapRow hires (y0 + j') = wrapRow hires (y0 + (1 + j)) := by rw [← hr', hr, Nat.add_assoc]
  simp only [List.length_singleton] at hj'
  have := wrapRow_injective (by omega) (by omega) e
  omega

/-- The whole large sprite: it is drawn, every cell XORed with what covers it, and the erase report is the OR over
all its rows (R163, R164). -/
theorem drawLargeRows_spec (hires : Bool) (x0 n : Nat) (hn : n ≤ 32) :
    ∀ (y0 : Nat) (b : List Byte) (_ : b.length = 2 * n) (fb : Framebuffer) (e : Bool),
    ∃ q : Blit, drawLargeRows hires x0 y0 b (fb, e) = .ok q ∧
      (∀ r c, q.1.cell r c = (fb.cell r c ^^ largeCovers hires x0 y0 b r c)) ∧
      (q.2 = true ↔ e = true ∨ ∃ r c, largeCovers hires x0 y0 b r c = true ∧ fb.cell r c = true) := by
  induction n with
  | zero =>
    intro y0 b hb fb e
    have : b = [] := List.length_eq_zero_iff.1 (by omega)
    subst this
    exact ⟨(fb, e), rfl, by simp [largeCovers], by simp [largeCovers]⟩
  | succ n ih =>
    intro y0 b hb fb e
    match b, hb with
    | l :: g :: rest, hb =>
      have hrest : rest.length = 2 * n := by simp only [List.length_cons] at hb; omega
      obtain ⟨hc1, he1⟩ := drawRows_spec hires x0 y0 [l] (by simp) (fb, false)
      obtain ⟨hc2, he2⟩ := drawRows_spec hires (x0 + 8) y0 [g] (by simp)
        ((drawRows hires x0 y0 [l] (fb, false)).1, false)
      obtain ⟨q, hq, hqc, hqe⟩ := ih (by omega) (y0 + 1) rest hrest
        (drawRows hires (x0 + 8) y0 [g] ((drawRows hires x0 y0 [l] (fb, false)).1, false)).1
        (e || (drawRows hires x0 y0 [l] (fb, false)).2 ||
          (drawRows hires (x0 + 8) y0 [g] ((drawRows hires x0 y0 [l] (fb, false)).1, false)).2)
      have hd2 : ∀ r c, rowsCover hires (x0 + 8) y0 [g] r c = true → rowsCover hires x0 y0 [l] r c = false :=
        fun r c h => halves_disjoint h
      have hd3 : ∀ r c, largeCovers hires x0 (y0 + 1) rest r c = true →
          rowsCover hires x0 y0 [l] r c = false ∧ rowsCover hires (x0 + 8) y0 [g] r c = false :=
        fun r c h => ⟨large_rows_disjoint hrest (by omega) h, large_rows_disjoint hrest (by omega) h⟩
      refine ⟨q, ?_, ?_, ?_⟩
      · rw [drawLargeRows, drawSprite_ok (by simp)]
        simp only
        rw [drawSprite_ok (by simp)]
        exact hq
      · intro r c
        rw [hqc, hc2, hc1]
        simp only [largeCovers]
        cases h3 : largeCovers hires x0 (y0 + 1) rest r c with
        | true => simp [hd3 r c h3]
        | false =>
          cases h2 : rowsCover hires (x0 + 8) y0 [g] r c with
          | true => simp [hd2 r c h2]
          | false => simp
      · rw [hqe]
        simp only [Bool.or_eq_true, he1, he2, Bool.false_eq_true, false_or, largeCovers, or_assoc]
        apply or_congr_right
        constructor
        · rintro (⟨r, c, hcov, hlit⟩ | ⟨r, c, hcov, hlit⟩ | ⟨r, c, hcov, hlit⟩)
          · exact ⟨r, c, .inl hcov, hlit⟩
          · rw [hc1, hd2 r c hcov, Bool.xor_false] at hlit
            exact ⟨r, c, .inr (.inl hcov), hlit⟩
          · rw [hc2, hc1, (hd3 r c hcov).1, (hd3 r c hcov).2, Bool.xor_false, Bool.xor_false] at hlit
            exact ⟨r, c, .inr (.inr hcov), hlit⟩
        · rintro ⟨r, c, hcov | hcov | hcov, hlit⟩
          · exact .inl ⟨r, c, hcov, hlit⟩
          · exact .inr (.inl ⟨r, c, hcov, by rw [hc1, hd2 r c hcov, Bool.xor_false]; exact hlit⟩)
          · refine .inr (.inr ⟨r, c, hcov, ?_⟩)
            rw [hc2, hc1, (hd3 r c hcov).1, (hd3 r c hcov).2, Bool.xor_false, Bool.xor_false]
            exact hlit

end Sys2Proof.Machine
end

