-- ==== Sys2Proof/Laws/Memory.lean ====
section
/-! SUPPORT. The memory's laws: every operation keeps the canonical form; a read after a write; blocks byte by byte
(20_memory.md R42–R46, R53). -/

namespace Sys2Proof.Machine

/-! ## The canonical form -/

theorem Memory.wfFrom_cons {lo k : Nat} {b : Byte} {m : Memory} :
    Memory.wfFrom lo ((k, b) :: m) = true ↔
      lo ≤ k ∧ k < Config.memSize ∧ b ≠ Config.resetByte k ∧ Memory.wfFrom (k + 1) m = true := by
  simp [Memory.wfFrom, and_assoc]

/-- A form that starts later starts earlier too. -/
theorem Memory.wfFrom_mono {lo hi : Nat} {m : Memory} (h : Memory.wfFrom hi m = true) (hle : lo ≤ hi) :
    Memory.wfFrom lo m = true := by
  cases m with
  | nil => rfl
  | cons p m =>
    obtain ⟨k, b⟩ := p
    rw [Memory.wfFrom_cons] at h ⊢
    exact ⟨by omega, h.2⟩

/-- Below its first address a memory reads as at reset. -/
theorem Memory.read_below {lo a : Nat} {m : Memory} (h : Memory.wfFrom lo m = true) (ha : a < lo) :
    m.read a = Config.resetByte a := by
  induction m generalizing lo with
  | nil => rfl
  | cons p m ih =>
    obtain ⟨k, b⟩ := p
    rw [Memory.wfFrom_cons] at h
    have hk : k ≠ a := by omega
    simp only [Memory.read, hk, if_false]
    exact ih h.2.2.2 (by omega)

/-- Outside the 4096 bytes a canonical memory holds nothing. -/
theorem Memory.read_outside {lo a : Nat} {m : Memory} (h : Memory.wfFrom lo m = true) (ha : Config.memSize ≤ a) :
    m.read a = Config.resetByte a := by
  induction m generalizing lo with
  | nil => rfl
  | cons p m ih =>
    obtain ⟨k, b⟩ := p
    rw [Memory.wfFrom_cons] at h
    have hk : k ≠ a := by omega
    simp only [Memory.read, hk, if_false]
    exact ih h.2.2.2

theorem Memory.read_cons (a c : Nat) (b : Byte) (m : Memory) :
    (Memory.cons a b m).read c = if c = a then (if b = Config.resetByte a then m.read a else b) else m.read c := by
  unfold Memory.cons
  split
  · rename_i h
    split <;> simp_all
  · by_cases h : c = a
    · simp [Memory.read, h]
    · simp [Memory.read, h, Ne.symm h]

theorem Memory.wfFrom_cons_of {lo a : Nat} {b : Byte} {m : Memory} (hm : Memory.wfFrom (a + 1) m = true)
    (hlo : lo ≤ a) (ha : a < Config.memSize) : Memory.wfFrom lo (Memory.cons a b m) = true := by
  unfold Memory.cons
  split
  · exact Memory.wfFrom_mono hm (by omega)
  · rename_i h
    exact Memory.wfFrom_cons.2 ⟨hlo, ha, h, hm⟩

/-- A write inside the capacity keeps the canonical form. -/
theorem Memory.wfFrom_write {lo a : Nat} {b : Byte} {m : Memory} (hm : Memory.wfFrom lo m = true)
    (hlo : lo ≤ a) (ha : a < Config.memSize) : Memory.wfFrom lo (m.write a b) = true := by
  induction m generalizing lo with
  | nil => exact Memory.wfFrom_cons_of rfl hlo ha
  | cons p m ih =>
    obtain ⟨k, c⟩ := p
    rw [Memory.wfFrom_cons] at hm
    unfold Memory.write
    split
    · exact Memory.wfFrom_cons_of (Memory.wfFrom_cons.2 ⟨by omega, hm.2.1, hm.2.2.1, hm.2.2.2⟩) hlo ha
    · split
      · rename_i h
        exact Memory.wfFrom_cons_of (h ▸ hm.2.2.2) hlo ha
      · exact Memory.wfFrom_cons.2 ⟨hm.1, hm.2.1, hm.2.2.1, ih hm.2.2.2 (by omega)⟩

theorem Memory.wf_write {a : Nat} {b : Byte} {m : Memory} (hm : m.wf = true) (ha : a < Config.memSize) :
    (m.write a b).wf = true :=
  Memory.wfFrom_write hm (Nat.zero_le a) ha

/-- A read after a write: the byte written at its address, and every other byte as before (R53). -/
theorem Memory.read_write_from {lo a c : Nat} {b : Byte} {m : Memory} (hm : Memory.wfFrom lo m = true) :
    (m.write a b).read c = if c = a then b else m.read c := by
  induction m generalizing lo with
  | nil =>
    rw [Memory.write, Memory.read_cons]
    by_cases h : c = a <;> simp [h, Memory.read]
    intro hb
    exact hb.symm
  | cons p m ih =>
    obtain ⟨k, d⟩ := p
    have hwf := hm
    rw [Memory.wfFrom_cons] at hm
    unfold Memory.write
    split
    · rename_i hak
      have hbelow : Memory.read ((k, d) :: m) a = Config.resetByte a :=
        Memory.read_below (Memory.wfFrom_cons.2 ⟨le_refl k, hm.2⟩) hak
      rw [Memory.read_cons, hbelow]
      by_cases h : c = a <;> simp [h]
      intro hb
      exact hb.symm
    · split
      · rename_i hak
        have hbelow : Memory.read m a = Config.resetByte a := Memory.read_below hm.2.2.2 (by omega)
        rw [Memory.read_cons, hbelow]
        by_cases h : c = a
        · simp [h]
          intro hb
          exact hb.symm
        · have hkc : k ≠ c := by omega
          simp [h, Memory.read, hkc]
      · rename_i h1 h2
        by_cases hkc : k = c
        · have hca : c ≠ a := by omega
          simp [Memory.read, hkc, hca]
        · simp only [Memory.read, hkc, if_false]
          exact ih hm.2.2.2

theorem Memory.read_write {a c : Nat} {b : Byte} {m : Memory} (hm : m.wf = true) :
    (m.write a b).read c = if c = a then b else m.read c :=
  Memory.read_write_from hm

/-! ## Blocks -/

theorem Memory.readMany_length (m : Memory) (a n : Nat) : (m.readMany a n).length = n := by
  induction n generalizing a with
  | zero => rfl
  | succ n ih => simp [Memory.readMany, ih]

theorem Memory.readMany_getElem (m : Memory) (a n k : Nat) (hk : k < (m.readMany a n).length) :
    (m.readMany a n)[k] = m.read (a + k) := by
  induction n generalizing a k with
  | zero => simp [Memory.readMany] at hk
  | succ n ih =>
    cases k with
    | zero => rfl
    | succ k =>
      simp only [Memory.readMany, List.getElem_cons_succ]
      rw [ih]
      congr 1
      omega

theorem Memory.wf_writeMany {a : Nat} {bs : List Byte} {m : Memory} (hm : m.wf = true)
    (ha : a + bs.length ≤ Config.memSize) : (m.writeMany a bs).wf = true := by
  induction bs generalizing a m with
  | nil => exact hm
  | cons b bs ih =>
    simp only [List.length_cons] at ha
    exact ih (Memory.wf_write hm (by omega)) (by omega)

/-- A block write changes the bytes of the block and no other (R45). -/
theorem Memory.read_writeMany {a c : Nat} {bs : List Byte} {m : Memory} (hm : m.wf = true)
    (ha : a + bs.length ≤ Config.memSize) :
    (m.writeMany a bs).read c = if h : a ≤ c ∧ c - a < bs.length then bs[c - a]'h.2 else m.read c := by
  induction bs generalizing a m with
  | nil => simp [Memory.writeMany]
  | cons b bs ih =>
    simp only [List.length_cons] at ha
    rw [Memory.writeMany, ih (Memory.wf_write hm (by omega)) (by omega), Memory.read_write hm]
    by_cases h : a + 1 ≤ c ∧ c - (a + 1) < bs.length
    · have h' : a ≤ c ∧ c - a < (b :: bs).length := by simp only [List.length_cons]; omega
      have hidx : c - a = (c - (a + 1)) + 1 := by omega
      rw [dif_pos h, dif_pos h']
      simp only [hidx, List.getElem_cons_succ]
    · rw [dif_neg h]
      by_cases hca : c = a
      · subst hca
        simp
      · have h' : ¬ (a ≤ c ∧ c - a < (b :: bs).length) := by simp only [List.length_cons]; omega
        rw [dif_neg h', if_neg hca]

/-! ## The checked primitives -/

/-- All that a block read can do (R44). -/
theorem memRead_cases (m : Memory) (a n : Nat) :
    (a + n < 4096 ∧ memRead m a n = .ok (m.readMany a n)) ∨
    (4096 ≤ a + n ∧ memRead m a n = .error .addressOutOfRange) := by
  unfold memRead blockOutOfRange Config.memSize
  by_cases h : a + n ≥ 4096
  · exact .inr ⟨h, by simp [h]⟩
  · exact .inl ⟨by omega, by simp [h]⟩

/-- All that a block write can do (R45). -/
theorem memWrite_cases (m : Memory) (a : Nat) (bs : List Byte) :
    (a + bs.length < 4096 ∧ memWrite m a bs = .ok (m.writeMany a bs)) ∨
    (4096 ≤ a + bs.length ∧ memWrite m a bs = .error .addressOutOfRange) := by
  unfold memWrite blockOutOfRange Config.memSize
  by_cases h : a + bs.length ≥ 4096
  · exact .inr ⟨h, by simp [h]⟩
  · exact .inl ⟨by omega, by simp [h]⟩

/-- All that a fetch can do (R46). -/
theorem fetchInstr_cases (m : Memory) (a : Nat) :
    (a ≤ 0xFFE ∧ fetchInstr m a = some (m.read a, m.read (a + 1))) ∨ (0xFFF ≤ a ∧ fetchInstr m a = none) := by
  unfold fetchInstr Config.memSize
  by_cases h : a + 2 > 4096
  · exact .inr ⟨by omega, by simp [h]⟩
  · exact .inl ⟨by omega, by simp [h]⟩

theorem memWriteByte_keeps_wf {m m' : Memory} {a : Nat} {b : Byte} (hm : m.wf = true)
    (h : memWriteByte m a b = .ok m') : m'.wf = true := by
  unfold memWriteByte at h
  split at h
  · cases h
  · cases h
    exact Memory.wf_write hm (by omega)

theorem memWrite_keeps_wf {m m' : Memory} {a : Nat} {bs : List Byte} (hm : m.wf = true)
    (h : memWrite m a bs = .ok m') : m'.wf = true := by
  obtain ⟨hle, heq⟩ | ⟨-, heq⟩ := memWrite_cases m a bs
  · rw [heq] at h
    cases h
    exact Memory.wf_writeMany hm (by unfold Config.memSize; omega)
  · rw [heq] at h
    cases h

theorem State.reset_mem_wf : State.reset.mem.wf = true := rfl

/-- Memory is zero from byte 80 on right after reset (R41). -/
theorem resetByte_of_ge {a : Nat} (h : 80 ≤ a) : Config.resetByte a = 0 := by
  unfold Config.resetByte
  rw [List.getElem?_eq_none (by simpa [Config.font] using h)]
  rfl

end Sys2Proof.Machine
end

