-- ==== Sys2Proof/Laws/State.lean ====
section
/-! SUPPORT. Each named update of State, field by field: what it leaves alone, by `rfl`; and the register accessors. -/

namespace Sys2Proof.Machine

/-! ## `setReg` -/

@[simp] theorem State.setReg_i (s : State) (x : RegIndex) (b : Byte) : (s.setReg x b).i = s.i := rfl
@[simp] theorem State.setReg_pc (s : State) (x : RegIndex) (b : Byte) : (s.setReg x b).pc = s.pc := rfl
@[simp] theorem State.setReg_sp (s : State) (x : RegIndex) (b : Byte) : (s.setReg x b).sp = s.sp := rfl
@[simp] theorem State.setReg_stack (s : State) (x : RegIndex) (b : Byte) : (s.setReg x b).stack = s.stack := rfl
@[simp] theorem State.setReg_rpl (s : State) (x : RegIndex) (b : Byte) : (s.setReg x b).rpl = s.rpl := rfl
@[simp] theorem State.setReg_dt (s : State) (x : RegIndex) (b : Byte) : (s.setReg x b).dt = s.dt := rfl
@[simp] theorem State.setReg_st (s : State) (x : RegIndex) (b : Byte) : (s.setReg x b).st = s.st := rfl
@[simp] theorem State.setReg_key (s : State) (x : RegIndex) (b : Byte) : (s.setReg x b).key = s.key := rfl
@[simp] theorem State.setReg_fb (s : State) (x : RegIndex) (b : Byte) : (s.setReg x b).fb = s.fb := rfl
@[simp] theorem State.setReg_hires (s : State) (x : RegIndex) (b : Byte) : (s.setReg x b).hires = s.hires := rfl
@[simp] theorem State.setReg_power (s : State) (x : RegIndex) (b : Byte) : (s.setReg x b).power = s.power := rfl
@[simp] theorem State.setReg_mem (s : State) (x : RegIndex) (b : Byte) : (s.setReg x b).mem = s.mem := rfl
@[simp] theorem State.setReg_waiting (s : State) (x : RegIndex) (b : Byte) : (s.setReg x b).waiting = s.waiting := rfl
@[simp] theorem State.setReg_schedule (s : State) (x : RegIndex) (b : Byte) : (s.setReg x b).schedule = s.schedule := rfl
@[simp] theorem State.setReg_moves (s : State) (x : RegIndex) (b : Byte) : (s.setReg x b).moves = s.moves := rfl
@[simp] theorem State.setReg_keyAnswers (s : State) (x : RegIndex) (b : Byte) : (s.setReg x b).keyAnswers = s.keyAnswers := rfl
@[simp] theorem State.setReg_asks (s : State) (x : RegIndex) (b : Byte) : (s.setReg x b).asks = s.asks := rfl
@[simp] theorem State.setReg_draws (s : State) (x : RegIndex) (b : Byte) : (s.setReg x b).draws = s.draws := rfl
@[simp] theorem State.setReg_romOpen (s : State) (x : RegIndex) (b : Byte) : (s.setReg x b).romOpen = s.romOpen := rfl
@[simp] theorem State.setReg_onFault (s : State) (x : RegIndex) (b : Byte) : (s.setReg x b).onFault = s.onFault := rfl
@[simp] theorem State.setReg_returned (s : State) (x : RegIndex) (b : Byte) : (s.setReg x b).returned = s.returned := rfl

/-! ## `jumpTo` -/

@[simp] theorem State.jumpTo_v (s : State) (a : Word16) : (s.jumpTo a).v = s.v := rfl
@[simp] theorem State.jumpTo_i (s : State) (a : Word16) : (s.jumpTo a).i = s.i := rfl
@[simp] theorem State.jumpTo_sp (s : State) (a : Word16) : (s.jumpTo a).sp = s.sp := rfl
@[simp] theorem State.jumpTo_stack (s : State) (a : Word16) : (s.jumpTo a).stack = s.stack := rfl
@[simp] theorem State.jumpTo_rpl (s : State) (a : Word16) : (s.jumpTo a).rpl = s.rpl := rfl
@[simp] theorem State.jumpTo_dt (s : State) (a : Word16) : (s.jumpTo a).dt = s.dt := rfl
@[simp] theorem State.jumpTo_st (s : State) (a : Word16) : (s.jumpTo a).st = s.st := rfl
@[simp] theorem State.jumpTo_key (s : State) (a : Word16) : (s.jumpTo a).key = s.key := rfl
@[simp] theorem State.jumpTo_fb (s : State) (a : Word16) : (s.jumpTo a).fb = s.fb := rfl
@[simp] theorem State.jumpTo_hires (s : State) (a : Word16) : (s.jumpTo a).hires = s.hires := rfl
@[simp] theorem State.jumpTo_power (s : State) (a : Word16) : (s.jumpTo a).power = s.power := rfl
@[simp] theorem State.jumpTo_mem (s : State) (a : Word16) : (s.jumpTo a).mem = s.mem := rfl
@[simp] theorem State.jumpTo_waiting (s : State) (a : Word16) : (s.jumpTo a).waiting = s.waiting := rfl
@[simp] theorem State.jumpTo_schedule (s : State) (a : Word16) : (s.jumpTo a).schedule = s.schedule := rfl
@[simp] theorem State.jumpTo_moves (s : State) (a : Word16) : (s.jumpTo a).moves = s.moves := rfl
@[simp] theorem State.jumpTo_keyAnswers (s : State) (a : Word16) : (s.jumpTo a).keyAnswers = s.keyAnswers := rfl
@[simp] theorem State.jumpTo_asks (s : State) (a : Word16) : (s.jumpTo a).asks = s.asks := rfl
@[simp] theorem State.jumpTo_draws (s : State) (a : Word16) : (s.jumpTo a).draws = s.draws := rfl
@[simp] theorem State.jumpTo_romOpen (s : State) (a : Word16) : (s.jumpTo a).romOpen = s.romOpen := rfl
@[simp] theorem State.jumpTo_onFault (s : State) (a : Word16) : (s.jumpTo a).onFault = s.onFault := rfl
@[simp] theorem State.jumpTo_returned (s : State) (a : Word16) : (s.jumpTo a).returned = s.returned := rfl

/-! ## `advance` -/

@[simp] theorem State.advance_v (s : State) : (s.advance).v = s.v := rfl
@[simp] theorem State.advance_i (s : State) : (s.advance).i = s.i := rfl
@[simp] theorem State.advance_sp (s : State) : (s.advance).sp = s.sp := rfl
@[simp] theorem State.advance_stack (s : State) : (s.advance).stack = s.stack := rfl
@[simp] theorem State.advance_rpl (s : State) : (s.advance).rpl = s.rpl := rfl
@[simp] theorem State.advance_dt (s : State) : (s.advance).dt = s.dt := rfl
@[simp] theorem State.advance_st (s : State) : (s.advance).st = s.st := rfl
@[simp] theorem State.advance_key (s : State) : (s.advance).key = s.key := rfl
@[simp] theorem State.advance_fb (s : State) : (s.advance).fb = s.fb := rfl
@[simp] theorem State.advance_hires (s : State) : (s.advance).hires = s.hires := rfl
@[simp] theorem State.advance_power (s : State) : (s.advance).power = s.power := rfl
@[simp] theorem State.advance_mem (s : State) : (s.advance).mem = s.mem := rfl
@[simp] theorem State.advance_waiting (s : State) : (s.advance).waiting = s.waiting := rfl
@[simp] theorem State.advance_schedule (s : State) : (s.advance).schedule = s.schedule := rfl
@[simp] theorem State.advance_moves (s : State) : (s.advance).moves = s.moves := rfl
@[simp] theorem State.advance_keyAnswers (s : State) : (s.advance).keyAnswers = s.keyAnswers := rfl
@[simp] theorem State.advance_asks (s : State) : (s.advance).asks = s.asks := rfl
@[simp] theorem State.advance_draws (s : State) : (s.advance).draws = s.draws := rfl
@[simp] theorem State.advance_romOpen (s : State) : (s.advance).romOpen = s.romOpen := rfl
@[simp] theorem State.advance_onFault (s : State) : (s.advance).onFault = s.onFault := rfl
@[simp] theorem State.advance_returned (s : State) : (s.advance).returned = s.returned := rfl

/-! ## `setI` -/

@[simp] theorem State.setI_v (s : State) (a : Word16) : (s.setI a).v = s.v := rfl
@[simp] theorem State.setI_pc (s : State) (a : Word16) : (s.setI a).pc = s.pc := rfl
@[simp] theorem State.setI_sp (s : State) (a : Word16) : (s.setI a).sp = s.sp := rfl
@[simp] theorem State.setI_stack (s : State) (a : Word16) : (s.setI a).stack = s.stack := rfl
@[simp] theorem State.setI_rpl (s : State) (a : Word16) : (s.setI a).rpl = s.rpl := rfl
@[simp] theorem State.setI_dt (s : State) (a : Word16) : (s.setI a).dt = s.dt := rfl
@[simp] theorem State.setI_st (s : State) (a : Word16) : (s.setI a).st = s.st := rfl
@[simp] theorem State.setI_key (s : State) (a : Word16) : (s.setI a).key = s.key := rfl
@[simp] theorem State.setI_fb (s : State) (a : Word16) : (s.setI a).fb = s.fb := rfl
@[simp] theorem State.setI_hires (s : State) (a : Word16) : (s.setI a).hires = s.hires := rfl
@[simp] theorem State.setI_power (s : State) (a : Word16) : (s.setI a).power = s.power := rfl
@[simp] theorem State.setI_mem (s : State) (a : Word16) : (s.setI a).mem = s.mem := rfl
@[simp] theorem State.setI_waiting (s : State) (a : Word16) : (s.setI a).waiting = s.waiting := rfl
@[simp] theorem State.setI_schedule (s : State) (a : Word16) : (s.setI a).schedule = s.schedule := rfl
@[simp] theorem State.setI_moves (s : State) (a : Word16) : (s.setI a).moves = s.moves := rfl
@[simp] theorem State.setI_keyAnswers (s : State) (a : Word16) : (s.setI a).keyAnswers = s.keyAnswers := rfl
@[simp] theorem State.setI_asks (s : State) (a : Word16) : (s.setI a).asks = s.asks := rfl
@[simp] theorem State.setI_draws (s : State) (a : Word16) : (s.setI a).draws = s.draws := rfl
@[simp] theorem State.setI_romOpen (s : State) (a : Word16) : (s.setI a).romOpen = s.romOpen := rfl
@[simp] theorem State.setI_onFault (s : State) (a : Word16) : (s.setI a).onFault = s.onFault := rfl
@[simp] theorem State.setI_returned (s : State) (a : Word16) : (s.setI a).returned = s.returned := rfl

/-! ## `beginStep` -/

@[simp] theorem State.beginStep_v (s : State) : (s.beginStep).v = s.v := rfl
@[simp] theorem State.beginStep_i (s : State) : (s.beginStep).i = s.i := rfl
@[simp] theorem State.beginStep_pc (s : State) : (s.beginStep).pc = s.pc := rfl
@[simp] theorem State.beginStep_sp (s : State) : (s.beginStep).sp = s.sp := rfl
@[simp] theorem State.beginStep_stack (s : State) : (s.beginStep).stack = s.stack := rfl
@[simp] theorem State.beginStep_rpl (s : State) : (s.beginStep).rpl = s.rpl := rfl
@[simp] theorem State.beginStep_dt (s : State) : (s.beginStep).dt = s.dt := rfl
@[simp] theorem State.beginStep_st (s : State) : (s.beginStep).st = s.st := rfl
@[simp] theorem State.beginStep_key (s : State) : (s.beginStep).key = s.key := rfl
@[simp] theorem State.beginStep_fb (s : State) : (s.beginStep).fb = s.fb := rfl
@[simp] theorem State.beginStep_hires (s : State) : (s.beginStep).hires = s.hires := rfl
@[simp] theorem State.beginStep_power (s : State) : (s.beginStep).power = s.power := rfl
@[simp] theorem State.beginStep_mem (s : State) : (s.beginStep).mem = s.mem := rfl
@[simp] theorem State.beginStep_waiting (s : State) : (s.beginStep).waiting = s.waiting := rfl
@[simp] theorem State.beginStep_schedule (s : State) : (s.beginStep).schedule = s.schedule := rfl
@[simp] theorem State.beginStep_moves (s : State) : (s.beginStep).moves = s.moves := rfl
@[simp] theorem State.beginStep_keyAnswers (s : State) : (s.beginStep).keyAnswers = s.keyAnswers := rfl
@[simp] theorem State.beginStep_asks (s : State) : (s.beginStep).asks = s.asks := rfl
@[simp] theorem State.beginStep_draws (s : State) : (s.beginStep).draws = s.draws := rfl
@[simp] theorem State.beginStep_onFault (s : State) : (s.beginStep).onFault = s.onFault := rfl

/-! ## What the updates write -/

@[simp] theorem State.jumpTo_pc (s : State) (a : Word16) : (s.jumpTo a).pc = a := rfl
@[simp] theorem State.advance_pc (s : State) : s.advance.pc = s.pc + 2 := rfl
@[simp] theorem State.setI_i (s : State) (a : Word16) : (s.setI a).i = a := rfl
@[simp] theorem State.beginStep_romOpen (s : State) : s.beginStep.romOpen = false := rfl
@[simp] theorem State.beginStep_returned (s : State) : s.beginStep.returned = none := rfl
theorem State.setReg_v (s : State) (x : RegIndex) (b : Byte) : (s.setReg x b).v = s.v.set x.val b := rfl

/-! ## Registers -/

/-- `V[x] <- b` gives `V[x]` the value and leaves the other fifteen (R10). -/
theorem State.reg_setReg (s : State) (x r : RegIndex) (b : Byte) :
    (s.setReg x b).reg r = if r = x then b else s.reg r := by
  simp only [State.reg, State.setReg, Vector.getElem_set, Fin.ext_iff, eq_comm]

@[simp] theorem State.reg_setReg_self (s : State) (x : RegIndex) (b : Byte) : (s.setReg x b).reg x = b := by
  simp [State.reg_setReg]

theorem State.reg_setReg_ne (s : State) {x r : RegIndex} (b : Byte) (h : r ≠ x) :
    (s.setReg x b).reg r = s.reg r := by
  simp [State.reg_setReg, h]

@[simp] theorem State.reg_jumpTo (s : State) (a : Word16) (r : RegIndex) : (s.jumpTo a).reg r = s.reg r := rfl
@[simp] theorem State.reg_advance (s : State) (r : RegIndex) : s.advance.reg r = s.reg r := rfl
@[simp] theorem State.reg_setI (s : State) (a : Word16) (r : RegIndex) : (s.setI a).reg r = s.reg r := rfl
@[simp] theorem State.reg_beginStep (s : State) (r : RegIndex) : s.beginStep.reg r = s.reg r := rfl

/-- A register write is a change of the register file alone. -/
theorem State.setReg_eq (s : State) (x : RegIndex) (b : Byte) :
    s.setReg x b = { s with v := (s.setReg x b).v } := rfl

/-- Two register writes are a change of the register file alone. -/
theorem State.setReg_setReg_eq (s : State) (x y : RegIndex) (b c : Byte) :
    (s.setReg x b).setReg y c = { s with v := ((s.setReg x b).setReg y c).v } := rfl

/-- Register files that agree at every index are equal. -/
theorem State.v_ext {s t : State} (h : ∀ r, t.reg r = s.reg r) : t.v = s.v := by
  apply Vector.ext
  intro k hk
  exact h ⟨k, hk⟩

@[simp] theorem State.reset_reg (r : RegIndex) : State.reset.reg r = 0 := by
  simp [State.reg, State.reset]

end Sys2Proof.Machine
end

