-- ==== Sys2Proof/Laws/Ops.lean ====
section
/-! SUPPORT. All that each shared operation can do: errors, the call stack, register blocks, the provider, the
sequencer. Later proofs cite these and do not unfold the operations. -/

namespace Sys2Proof.Machine

/-! ## `raise` (R222, R231) -/

theorem raise_stop {e : Fault} {s : State} (h : s.onFault = .stop) : raise e s = .fault e := by
  unfold raise
  split
  · rfl
  · rw [h]

theorem raise_goOn {e : Fault} {s : State} (h : s.onFault = .goOn) (he : e ≠ .unspecified) :
    raise e s = .next { s with returned := some e } := by
  unfold raise
  rw [if_neg he, h]

theorem raise_unspecified (s : State) : raise .unspecified s = .fault .unspecified := rfl

/-- An error goes on only under `continue`, with nothing changed but what the host has in hand. -/
theorem raise_next {e : Fault} {s t : State} (h : raise e s = .next t) :
    s.onFault = .goOn ∧ e ≠ .unspecified ∧ t = { s with returned := some e } := by
  unfold raise at h
  split at h
  · cases h
  · rename_i he
    split at h
    · cases h
    · rename_i hp
      exact ⟨hp, he, by cases h; rfl⟩

theorem raise_fault {e f : Fault} {s : State} (h : raise e s = .fault f) : f = e := by
  unfold raise at h
  split at h
  · cases h; rfl
  · split at h <;> cases h
    rfl

theorem raise_ne_refused {e : Fault} {s : State} {r : Refusal} : raise e s ≠ .refused r := by
  unfold raise
  split
  · simp
  · split <;> simp

/-! ## The call stack (R17, R18) -/

/-- All that a push can do. -/
theorem push_cases (a : Word16) (s : State) :
    (∃ h : s.sp.toNat < 16,
      push a s = .ok { s with stack := s.stack.set s.sp.toNat a h, sp := s.sp + 1 }) ∨
    (s.sp.toNat = 16 ∧ push a s = .error .stackOverflow) ∨
    (16 < s.sp.toNat ∧ push a s = .error .unspecified) := by
  unfold push Config.stackDepth
  by_cases h : s.sp.toNat < 16
  · exact .inl ⟨h, by simp [h]⟩
  · by_cases h16 : s.sp.toNat = 16
    · exact .inr (.inl ⟨h16, by simp [h16]⟩)
    · exact .inr (.inr ⟨by omega, by simp [h, h16]⟩)

/-- All that a pop can do. -/
theorem pop_cases (s : State) :
    (s.sp.toNat = 0 ∧ pop s = .error .stackUnderflow) ∨
    (∃ h : s.sp.toNat - 1 < 16, s.sp.toNat ≠ 0 ∧
      pop s = .ok (s.stack[s.sp.toNat - 1]'h, { s with sp := s.sp - 1 })) ∨
    (16 < s.sp.toNat ∧ pop s = .error .unspecified) := by
  unfold pop Config.stackDepth
  by_cases h0 : s.sp.toNat = 0
  · exact .inl ⟨h0, by simp [h0]⟩
  · by_cases h : s.sp.toNat - 1 < 16
    · exact .inr (.inl ⟨h, h0, by simp [h0, h]⟩)
    · exact .inr (.inr ⟨by omega, by simp [h0, h]⟩)

/-! ## Register blocks -/

/-- A block copy writes the places from `k` on that the list reaches and leaves the rest. -/
theorem putBlock_getElem {α : Type} {n : Nat} (vec : Vector α n) (k j : Nat) (bs : List α) (hj : j < n) :
    (putBlock vec k bs)[j] = if h : k ≤ j ∧ j - k < bs.length then bs[j - k]'h.2 else vec[j] := by
  induction bs generalizing vec k with
  | nil => simp [putBlock]
  | cons b bs ih =>
    rw [putBlock, ih]
    by_cases h : k + 1 ≤ j ∧ j - (k + 1) < bs.length
    · have h' : k ≤ j ∧ j - k < (b :: bs).length := by simp only [List.length_cons]; omega
      have hidx : j - k = (j - (k + 1)) + 1 := by omega
      rw [dif_pos h, dif_pos h']
      simp only [hidx, List.getElem_cons_succ]
    · rw [dif_neg h]
      by_cases hkj : k = j
      · subst hkj
        simp
      · have h' : ¬ (k ≤ j ∧ j - k < (b :: bs).length) := by simp only [List.length_cons]; omega
        rw [dif_neg h', Vector.getElem_setIfInBounds_ne hj hkj]

theorem firstRegs_length (s : State) (n : Nat) : (firstRegs s n).length = min n 16 := by
  simp [firstRegs]

theorem firstRegs_getElem (s : State) (n k : Nat) (hk : k < (firstRegs s n).length) (h16 : k < 16) :
    (firstRegs s n)[k] = s.reg ⟨k, h16⟩ := by
  simp [firstRegs, State.reg]

@[simp] theorem bcdDigits_length (b : Byte) : (bcdDigits b).length = 3 := rfl

/-! ## The provider (R192, R193) -/

theorem answerKeyWait_code (x : RegIndex) (c : Fin 16) (s : State) :
    answerKeyWait x (.code c) s = .next (({ s with waiting := none } : State).setReg x (BitVec.ofNat 8 c.val)) := rfl

theorem answerKeyWait_failure (x : RegIndex) (m : String) (s : State) :
    answerKeyWait x (.failure m) s = raise (.unknown m) { s with waiting := none } := rfl

/-- An answer that leads on ends the `WaitKey` and changes, beside it, a register or what the host has in hand. -/
theorem answerKeyWait_next {x : RegIndex} {a : KeyAnswer} {s t : State} (h : answerKeyWait x a s = .next t) :
    t = { s with waiting := none, v := t.v, returned := t.returned } := by
  cases a with
  | code c => cases h; rfl
  | failure m =>
    obtain ⟨-, -, rfl⟩ := raise_next h
    rfl

theorem keyWait_nil {x : RegIndex} {s : State} (h : s.keyAnswers = []) :
    keyWait x s = .next { s with waiting := some x } := by
  unfold keyWait
  rw [h]

theorem keyWait_code {x : RegIndex} {s : State} {c : Fin 16} {rest : List KeyAnswer}
    (h : s.keyAnswers = .code c :: rest) :
    keyWait x s = .next (({ s with keyAnswers := rest, waiting := none } : State).setReg x (BitVec.ofNat 8 c.val)) := by
  unfold keyWait
  rw [h]
  rfl

theorem keyWait_failure {x : RegIndex} {s : State} {m : String} {rest : List KeyAnswer}
    (h : s.keyAnswers = .failure m :: rest) :
    keyWait x s = raise (.unknown m) { s with keyAnswers := rest, waiting := none } := by
  unfold keyWait
  rw [h]
  rfl

/-- All that a call of the provider can do: a listed answer ends the `WaitKey`, else it is in progress. -/
theorem keyWait_cases (x : RegIndex) (s : State) :
    (s.keyAnswers = [] ∧ keyWait x s = .next { s with waiting := some x }) ∨
    (∃ a rest, s.keyAnswers = a :: rest ∧ keyWait x s = answerKeyWait x a { s with keyAnswers := rest }) := by
  unfold keyWait
  split
  · exact .inr ⟨_, _, by assumption, rfl⟩
  · exact .inl ⟨by assumption, rfl⟩

theorem continueKeyWait_list {x : RegIndex} {s : State} {a : KeyAnswer} {rest : List KeyAnswer}
    (h : s.keyAnswers = a :: rest) : continueKeyWait x s = answerKeyWait x a { s with keyAnswers := rest } := by
  unfold continueKeyWait
  rw [h]

theorem continueKeyWait_free {x : RegIndex} {s : State} {a : KeyAnswer} (h : s.keyAnswers = [])
    (ha : Config.keyAnswer s.asks = some a) :
    continueKeyWait x s = answerKeyWait x a { s with asks := s.asks + 1 } := by
  unfold continueKeyWait
  rw [h]
  simp only [ha]

theorem continueKeyWait_silent {x : RegIndex} {s : State} (h : s.keyAnswers = [])
    (ha : Config.keyAnswer s.asks = none) : continueKeyWait x s = .next { s with asks := s.asks + 1 } := by
  unfold continueKeyWait
  rw [h]
  simp only [ha]

/-- All that a machine step of waiting can do: an answer, from the list or freely, ends the `WaitKey`, or there is
none yet. The state an answer acts on differs from the old one in the provider's fields alone. -/
theorem continueKeyWait_cases (x : RegIndex) (s : State) :
    continueKeyWait x s = .next { s with asks := s.asks + 1 } ∨
    (∃ a answers n, continueKeyWait x s = answerKeyWait x a { s with keyAnswers := answers, asks := n }) := by
  unfold continueKeyWait
  split
  · exact .inr ⟨_, _, s.asks, rfl⟩
  · split
    · exact .inr ⟨_, s.keyAnswers, s.asks + 1, rfl⟩
    · exact .inl rfl

/-! ## The sequencer (R225) -/

theorem coreStep_halted {s : State} (h : s.power = .halted) : coreStep s = .next s := by
  unfold coreStep
  rw [h]

theorem coreStep_no_fetch {s : State} (h : s.power = .running) (hf : fetchInstr s.mem s.pc.toNat = none) :
    coreStep s = raise .invalidOpcode s := by
  unfold coreStep
  rw [h, hf]

theorem coreStep_no_decode {s : State} {hi lo : Byte} (h : s.power = .running)
    (hf : fetchInstr s.mem s.pc.toNat = some (hi, lo)) (hd : decode (joinBytes hi lo) = none) :
    coreStep s = raise .invalidOpcode s := by
  unfold coreStep
  rw [h, hf]
  simp only [hd]

theorem coreStep_exec {s : State} {hi lo : Byte} {i : Instr} (h : s.power = .running)
    (hf : fetchInstr s.mem s.pc.toNat = some (hi, lo)) (hd : decode (joinBytes hi lo) = some i) :
    coreStep s = exec i s.advance := by
  unfold coreStep
  rw [h, hf]
  simp only [hd]

/-- All that a core `step` can do (R224: the order of encounter). -/
theorem coreStep_cases (s : State) :
    (s.power = .halted ∧ coreStep s = .next s) ∨
    (s.power = .running ∧ coreStep s = raise .invalidOpcode s) ∨
    (∃ i, s.power = .running ∧ s.pc.toNat ≤ 0xFFE ∧
      decode (joinBytes (s.mem.read s.pc.toNat) (s.mem.read (s.pc.toNat + 1))) = some i ∧
      coreStep s = exec i s.advance) := by
  cases hp : s.power with
  | halted => exact .inl ⟨rfl, coreStep_halted hp⟩
  | running =>
    refine .inr ?_
    obtain ⟨hle, hf⟩ | ⟨-, hf⟩ := fetchInstr_cases s.mem s.pc.toNat
    · cases hd : decode (joinBytes (s.mem.read s.pc.toNat) (s.mem.read (s.pc.toNat + 1))) with
      | none => exact .inl ⟨rfl, coreStep_no_decode hp hf hd⟩
      | some i => exact .inr ⟨i, rfl, hle, rfl, coreStep_exec hp hf hd⟩
    · exact .inl ⟨rfl, coreStep_no_fetch hp hf⟩

/-! ## `load_rom` (R262) -/

/-- All that a `load_rom` can do. -/
theorem loadRom_cases (image : List Byte) (s : State) :
    (s.romOpen = true ∧ image.length ≤ 3584 ∧ loadRom image s =
      .next { s with mem := s.mem.writeMany 0x200 image, romOpen := false, returned := none }) ∨
    (s.romOpen = true ∧ 3584 < image.length ∧ loadRom image s = raise .romTooLarge { s with romOpen := false }) ∨
    (s.romOpen = false ∧ loadRom image s = .refused .romLoadNotOffered) := by
  unfold loadRom Config.romMax Config.romBase
  cases hr : s.romOpen with
  | false => exact .inr (.inr ⟨rfl, rfl⟩)
  | true =>
    by_cases h : image.length > 3584
    · exact .inr (.inl ⟨rfl, h, by simp [h]⟩)
    · exact .inl ⟨rfl, by omega, by simp [h]⟩

/-! ## The choice of the event (R5) -/

@[simp] theorem applyEvent_step (s : State) : applyEvent .step s = coreStep s.beginStep := rfl
@[simp] theorem applyEvent_tick (s : State) : applyEvent .tick s = .next (tick s) := rfl
@[simp] theorem applyEvent_keyPressed (c : Fin 16) (s : State) :
    applyEvent (.keyPressed c) s = .next (pressKey c s) := rfl
@[simp] theorem applyEvent_keyReleased (c : Fin 16) (s : State) :
    applyEvent (.keyReleased c) s = .next (releaseKey c s) := rfl
@[simp] theorem applyEvent_loadRom (image : List Byte) (s : State) :
    applyEvent (.loadRom image) s = loadRom image s := rfl

@[simp] theorem HostMove.toEvent_step : HostMove.step.toEvent = .step := rfl
@[simp] theorem HostMove.toEvent_tick : HostMove.tick.toEvent = .tick := rfl
@[simp] theorem HostMove.toEvent_keyPressed (c : Fin 16) : (HostMove.keyPressed c).toEvent = .keyPressed c := rfl
@[simp] theorem HostMove.toEvent_keyReleased (c : Fin 16) : (HostMove.keyReleased c).toEvent = .keyReleased c := rfl

/-- A free move of the host is never a `load_rom` (R5: "before the first `step` only"). -/
theorem HostMove.toEvent_ne_loadRom (m : HostMove) (image : List Byte) : m.toEvent ≠ .loadRom image := by
  cases m <;> simp

theorem takeEvent_cons {s : State} {e : HostEvent} {rest : List HostEvent} (h : s.schedule = e :: rest) :
    takeEvent s = (e, { s with schedule := rest }) := by
  unfold takeEvent
  rw [h]

theorem takeEvent_nil {s : State} (h : s.schedule = []) :
    takeEvent s = ((Config.hostMove s.moves).toEvent, { s with moves := s.moves + 1 }) := by
  unfold takeEvent
  rw [h]

/-- Taking the next event changes the host's side of the state alone. -/
theorem takeEvent_state (s : State) :
    (takeEvent s).2 = { s with schedule := (takeEvent s).2.schedule, moves := (takeEvent s).2.moves } := by
  cases h : s.schedule with
  | nil => rw [takeEvent_nil h]
  | cons e rest => rw [takeEvent_cons h]

theorem step_waiting {s : State} {x : RegIndex} (h : s.waiting = some x) : step s = continueKeyWait x s := by
  unfold step nextEvent
  rw [h]

/-- With no `WaitKey` in progress a machine step is the host's next event. -/
theorem step_event {s : State} (h : s.waiting = none) : step s = applyEvent (takeEvent s).1 (takeEvent s).2 := by
  unfold step nextEvent
  rw [h]

theorem step_free {s : State} (hw : s.waiting = none) (h : s.schedule = []) :
    step s = applyEvent (Config.hostMove s.moves).toEvent { s with moves := s.moves + 1 } := by
  rw [step_event hw, takeEvent_nil h]

theorem step_cons {s : State} {e : HostEvent} {rest : List HostEvent} (hw : s.waiting = none)
    (h : s.schedule = e :: rest) : step s = applyEvent e { s with schedule := rest } := by
  rw [step_event hw, takeEvent_cons h]

end Sys2Proof.Machine
end

