-- ==== Sys2Proof/Laws/Meanings.lean ====
section
/-! SUPPORT. All that the operations shared by the meanings can do, and the cases of the meanings that can fail. Later
proofs cite these and do not unfold the meanings. -/

namespace Sys2Proof.Machine

/-! ## Operand forms (R72, R102, R143, R190, R48) -/

@[simp] theorem zextAddr_toNat (addr : Addr12) : (zextAddr addr).toNat = addr.toNat := by
  have := addr.isLt
  simp [zextAddr]
  omega

@[simp] theorem indexedTarget_toNat (addr : Addr12) (v0 : Byte) :
    (indexedTarget addr v0).toNat = (addr.toNat + v0.toNat) % 4096 := by
  simp only [indexedTarget, Config.addrMod, BitVec.toNat_ofNat]
  omega

@[simp] theorem indexPlus_toNat (i : Word16) (b : Byte) : (indexPlus i b).toNat = (i.toNat + b.toNat) % 4096 := by
  simp only [indexPlus, Config.addrMod, BitVec.toNat_ofNat]
  omega

theorem keyPressed?_some {s : State} {code : Byte} (h : code.toNat < 16) :
    keyPressed? s code = some (s.key[code.toNat]'h) := by
  unfold keyPressed?
  rw [dif_pos h]

theorem keyPressed?_none {s : State} {code : Byte} (h : 15 < code.toNat) : keyPressed? s code = none := by
  unfold keyPressed?
  rw [dif_neg (by omega)]

theorem remainderImm_toNat (r imm : Byte) : (remainderImm r imm).toNat = r.toNat % (imm.toNat + 1) := by
  have hle := Nat.mod_le r.toNat (imm.toNat + 1)
  have := r.isLt
  simp only [remainderImm, BitVec.toNat_ofNat]
  omega

/-- A word from its two bytes, as a number (R46, R49). -/
theorem joinBytes_toNat (hi lo : Byte) : (joinBytes hi lo).toNat = 256 * hi.toNat + lo.toNat := by
  have := lo.isLt
  have := Nat.shiftLeft_add_eq_or_of_lt lo.isLt hi.toNat
  simp only [joinBytes, BitVec.toNat_append]
  rw [← this, Nat.shiftLeft_eq]
  omega

/-! ## Flags (R141) -/

theorem resultThenFlag_reg {x : RegIndex} (result : Byte) (f : Bool) (s : State) (h : x ≠ 15) :
    (resultThenFlag x result f s).reg x = result := by
  unfold resultThenFlag State.setFlag
  rw [State.reg_setReg_ne _ _ (show x ≠ vf from h), State.reg_setReg_self]

theorem resultThenFlag_vf (x : RegIndex) (result : Byte) (f : Bool) (s : State) :
    (resultThenFlag x result f s).reg 15 = flagByte f := State.reg_setReg_self _ vf _

theorem flagThenShift_reg {x : RegIndex} (f : Bool) (shift : Byte → Byte) (s : State) (h : x ≠ 15) :
    (flagThenShift x f shift s).reg x = shift (s.reg x) := by
  unfold flagThenShift
  rw [State.reg_setReg_self]
  exact congrArg shift (State.reg_setReg_ne s _ h)

theorem flagThenShift_vf {x : RegIndex} (f : Bool) (shift : Byte → Byte) (s : State) (h : x ≠ 15) :
    (flagThenShift x f shift s).reg 15 = flagByte f := by
  unfold flagThenShift
  rw [State.reg_setReg_ne _ _ (Ne.symm h)]
  exact State.reg_setReg_self s vf _

/-- With `x = 15` the flag itself is shifted. -/
theorem flagThenShift_self (f : Bool) (shift : Byte → Byte) (s : State) :
    (flagThenShift 15 f shift s).reg 15 = shift (flagByte f) := by
  unfold flagThenShift
  rw [State.reg_setReg_self]
  exact congrArg shift (State.reg_setReg_self s vf _)

/-! ## Control -/

/-- A skip is always a next state, `PC` alone changed (R105). -/
theorem skipIf_eq (c : Bool) (s : State) : skipIf c s = .next { s with pc := if c then s.pc + 2 else s.pc } := by
  cases c <;> rfl

/-- All that `Call` can do (R103). -/
theorem execCall_cases (addr : Addr12) (s : State) :
    (∃ h : s.sp.toNat < 16, execCall addr s =
      .next { s with stack := s.stack.set s.sp.toNat s.pc h, sp := s.sp + 1, pc := zextAddr addr }) ∨
    (s.sp.toNat = 16 ∧ execCall addr s = raise .stackOverflow s) ∨
    (16 < s.sp.toNat ∧ execCall addr s = raise .unspecified s) := by
  unfold execCall
  obtain ⟨h, e⟩ | ⟨h, e⟩ | ⟨h, e⟩ := push_cases s.pc s
  · exact .inl ⟨h, by rw [e]; rfl⟩
  · exact .inr (.inl ⟨h, by rw [e]⟩)
  · exact .inr (.inr ⟨h, by rw [e]⟩)

/-- All that `Ret` can do (R104). -/
theorem execRet_cases (s : State) :
    (s.sp.toNat = 0 ∧ execRet s = raise .stackUnderflow s) ∨
    (∃ h : s.sp.toNat - 1 < 16, s.sp.toNat ≠ 0 ∧
      execRet s = .next { s with pc := s.stack[s.sp.toNat - 1]'h, sp := s.sp - 1 }) ∨
    (16 < s.sp.toNat ∧ execRet s = raise .unspecified s) := by
  unfold execRet
  obtain ⟨h, e⟩ | ⟨h, h0, e⟩ | ⟨h, e⟩ := pop_cases s
  · exact .inl ⟨h, by rw [e]⟩
  · exact .inr (.inl ⟨h, h0, by rw [e]; rfl⟩)
  · exact .inr (.inr ⟨h, by rw [e]⟩)

/-! ## Loads, keyboard -/

/-- All that `LoadAddrDigit` can do (R123). -/
theorem execLoadAddrDigit_cases (x : RegIndex) (s : State) :
    ((s.reg x).toNat ≤ 15 ∧ execLoadAddrDigit x s = .next (s.setI (BitVec.ofNat 16 (5 * (s.reg x).toNat)))) ∨
    (15 < (s.reg x).toNat ∧ execLoadAddrDigit x s = raise .invalidDigitSprite s) := by
  unfold execLoadAddrDigit spriteAddressForDigit
  by_cases h : (s.reg x).toNat ≤ 15
  · exact .inl ⟨h, by simp [h, Config.fontBase, Config.digitBytes]⟩
  · exact .inr ⟨by omega, by simp [h]⟩

/-- All that `WaitKey` can do (R192). -/
theorem execWaitKey_cases (x : RegIndex) (s : State) :
    (s.keyAnswers = [] ∧ execWaitKey x s = .next { s with waiting := some x }) ∨
    (∃ c rest, s.keyAnswers = .code c :: rest ∧ execWaitKey x s =
      .next (({ s with keyAnswers := rest, waiting := none } : State).setReg x (BitVec.ofNat 8 c.val))) ∨
    (∃ m rest, s.keyAnswers = .failure m :: rest ∧
      execWaitKey x s = raise (.unknown m) { s with keyAnswers := rest, waiting := none }) := by
  obtain ⟨h, e⟩ | ⟨a, rest, h, e⟩ := keyWait_cases x s
  · exact .inl ⟨h, e⟩
  · cases a with
    | code c => exact .inr (.inl ⟨c, rest, h, e⟩)
    | failure m => exact .inr (.inr ⟨m, rest, h, e⟩)

/-! ## Memory blocks and the RPL pair -/

/-- All that a block store can do (R45, R200). -/
theorem storeBlock_cases (bs : List Byte) (s : State) :
    (s.i.toNat + bs.length < 4096 ∧ storeBlock bs s = .next { s with mem := s.mem.writeMany s.i.toNat bs }) ∨
    (4096 ≤ s.i.toNat + bs.length ∧ storeBlock bs s = raise .addressOutOfRange s) := by
  unfold storeBlock blockBase
  obtain ⟨h, e⟩ | ⟨h, e⟩ := memWrite_cases s.mem s.i.toNat bs
  · exact .inl ⟨h, by rw [e]⟩
  · exact .inr ⟨h, by rw [e]⟩

/-- All that `MemLoadRegs` can do (R203). -/
theorem execMemLoadRegs_cases (x : RegIndex) (s : State) :
    (s.i.toNat + x.val + 1 < 4096 ∧
      execMemLoadRegs x s = .next { s with v := putBlock s.v 0 (s.mem.readMany s.i.toNat (x.val + 1)) }) ∨
    (4096 ≤ s.i.toNat + x.val + 1 ∧ execMemLoadRegs x s = raise .addressOutOfRange s) := by
  unfold execMemLoadRegs blockBase
  obtain ⟨h, e⟩ | ⟨h, e⟩ := memRead_cases s.mem s.i.toNat (x.val + 1)
  · exact .inl ⟨by omega, by rw [e]⟩
  · exact .inr ⟨by omega, by rw [e]⟩

/-- All that `RplStoreRegs` can do (R205, R206). -/
theorem execRplStoreRegs_cases (x : RegIndex) (s : State) :
    (x.val ≤ 8 ∧ execRplStoreRegs x s = .next { s with rpl := putBlock s.rpl 0 (firstRegs s x.val) }) ∨
    (8 < x.val ∧ execRplStoreRegs x s = raise (.registerOutOfRange x) s) := by
  unfold execRplStoreRegs rplCount
  by_cases h : x.val > 8
  · exact .inr ⟨h, by simp [h]⟩
  · exact .inl ⟨by omega, by simp [h]⟩

/-- All that `RplLoadRegs` can do (R205, R207). -/
theorem execRplLoadRegs_cases (x : RegIndex) (s : State) :
    (x.val ≤ 8 ∧ execRplLoadRegs x s = .next { s with v := putBlock s.v 0 (s.rpl.toList.take x.val) }) ∨
    (8 < x.val ∧ execRplLoadRegs x s = raise (.registerOutOfRange x) s) := by
  unfold execRplLoadRegs rplCount
  by_cases h : x.val > 8
  · exact .inr ⟨h, by simp [h]⟩
  · exact .inl ⟨by omega, by simp [h]⟩

/-! ## `Draw` (R169) -/

theorem spriteSize_cases (nib : Nibble) :
    (nib = 0 ∧ spriteSize nib = 32) ∨ (nib ≠ 0 ∧ spriteSize nib = nib.toNat) := by
  unfold spriteSize
  by_cases h : nib = 0
  · exact .inl ⟨h, if_pos h⟩
  · exact .inr ⟨h, if_neg h⟩

/-- The blit of a sprite of the right size never fails, so `InvalidSprite` is unreachable (R220). -/
theorem blitSprite_ok (nib : Nibble) (hires : Bool) (x0 y0 : Nat) (b : List Byte) (fb : Framebuffer)
    (hb : b.length = spriteSize nib) : ∃ q, blitSprite nib hires x0 y0 b fb = .ok q := by
  unfold blitSprite
  obtain ⟨h, e⟩ | ⟨h, e⟩ := spriteSize_cases nib
  · rw [if_pos h]
    unfold drawLarge
    rw [if_neg (by rw [hb, e]; decide)]
    obtain ⟨q, hq, -⟩ := drawLargeRows_spec hires x0 16 (by omega) y0 b (by omega) fb false
    exact ⟨q, hq⟩
  · have := nib.isLt
    rw [if_neg h]
    unfold drawSprite
    rw [if_neg (by rw [hb, e]; unfold Config.spriteMax; omega)]
    exact ⟨_, rfl⟩

/-- All that `Draw` can do (R169). -/
theorem execDraw_cases (x y : RegIndex) (nib : Nibble) (s : State) :
    (s.i.toNat + spriteSize nib < 4096 ∧ ∃ q,
      blitSprite nib s.hires (s.reg x).toNat (s.reg y).toNat (s.mem.readMany s.i.toNat (spriteSize nib)) s.fb = .ok q ∧
      execDraw x y nib s = .next (({ s with fb := q.1 } : State).setReg vf (flagByte q.2))) ∨
    (4096 ≤ s.i.toNat + spriteSize nib ∧ execDraw x y nib s = raise .addressOutOfRange s) := by
  unfold execDraw blockBase
  obtain ⟨h, e⟩ | ⟨h, e⟩ := memRead_cases s.mem s.i.toNat (spriteSize nib)
  · obtain ⟨q, hq⟩ := blitSprite_ok nib s.hires (s.reg x).toNat (s.reg y).toNat
      (s.mem.readMany s.i.toNat (spriteSize nib)) s.fb (Memory.readMany_length _ _ _)
    refine .inl ⟨h, q, hq, ?_⟩
    rw [e]
    simp only [hq]
    rfl
  · exact .inr ⟨h, by rw [e]⟩

end Sys2Proof.Machine
end

