-- ==== Sys2Proof/Laws/PerInstr.lean ====
section
/-! SUPPORT. The family TableRow, a statement of every instruction made constructor by constructor: the word the
encoder forms matches the row of spec/opcode_table.json that carries the instruction's name (30_encoding.md R74,
R84). It is a fact about one row's mask and pattern; that the row is the FIRST to match is not said here. -/

namespace Sys2Proof.Laws

open Sys2Proof

/-- Some row of the table has the instruction's name and covers its word. -/
def TableRow.Statement (i : Instr) : Prop :=
  ∃ r ∈ opcodeTable, r.mnemonic = i.mnemonic ∧ r.covers (encode i) = true

/-! ## Masks field by field -/

theorem and_zero4 (a : BitVec 4) : a &&& 0 = 0 := BitVec.and_zero
theorem and_zero8 (a : BitVec 8) : a &&& 0 = 0 := BitVec.and_zero
theorem and_zero12 (a : BitVec 12) : a &&& 0 = 0 := BitVec.and_zero

theorem covers_formAddr (m : String) (op : Nibble) (addr : Addr12) :
    (OpcodeRow.mk m (op ++ (0 : BitVec 12)) 0xF000).covers (formAddr op addr) = true := by
  have hmask : (0xF000 : Word16) = (0xF : BitVec 4) ++ (0 : BitVec 12) := by decide
  have hop : op &&& 0xF = op := by revert op; decide
  rw [OpcodeRow.covers, beq_iff_eq]
  show (op ++ addr : Word16) &&& 0xF000 = op ++ (0 : BitVec 12)
  rw [hmask, BitVec.and_append, hop]
  simp only [and_zero12]

theorem covers_formXImm_any (m : String) (op : Nibble) (x : RegIndex) (imm : Byte) :
    (OpcodeRow.mk m (op ++ (0 : BitVec 12)) 0xF000).covers (formXImm op x imm) = true := by
  have hmask : (0xF000 : Word16) = ((0xF : BitVec 4) ++ (0 : BitVec 4)) ++ (0 : BitVec 8) := by decide
  have hpat : (op ++ (0 : BitVec 12) : Word16) = (op ++ (0 : BitVec 4)) ++ (0 : BitVec 8) := by revert op; decide
  have hop : op &&& 0xF = op := by revert op; decide
  rw [OpcodeRow.covers, beq_iff_eq]
  show ((op ++ regBits x) ++ imm : Word16) &&& 0xF000 = op ++ (0 : BitVec 12)
  rw [hmask, hpat, BitVec.and_append, BitVec.and_append, hop]
  simp only [and_zero4, and_zero8]

theorem covers_formXImm (m : String) (op : Nibble) (x : RegIndex) (imm : Byte) :
    (OpcodeRow.mk m ((op ++ (0 : BitVec 4)) ++ imm) 0xF0FF).covers (formXImm op x imm) = true := by
  have hmask : (0xF0FF : Word16) = ((0xF : BitVec 4) ++ (0 : BitVec 4)) ++ (0xFF : BitVec 8) := by decide
  have hop : op &&& 0xF = op := by revert op; decide
  have himm : imm &&& 0xFF = imm := by revert imm; decide
  rw [OpcodeRow.covers, beq_iff_eq]
  show ((op ++ regBits x) ++ imm : Word16) &&& 0xF0FF = (op ++ (0 : BitVec 4)) ++ imm
  rw [hmask, BitVec.and_append, BitVec.and_append, hop, himm]
  simp only [and_zero4]

theorem covers_formXYN_any (m : String) (op : Nibble) (x y : RegIndex) (nib : Nibble) :
    (OpcodeRow.mk m (op ++ (0 : BitVec 12)) 0xF000).covers (formXYN op x y nib) = true := by
  have hmask : (0xF000 : Word16) = (((0xF : BitVec 4) ++ (0 : BitVec 4)) ++ (0 : BitVec 4)) ++ (0 : BitVec 4) := by
    decide
  have hpat : (op ++ (0 : BitVec 12) : Word16) = ((op ++ (0 : BitVec 4)) ++ (0 : BitVec 4)) ++ (0 : BitVec 4) := by
    revert op; decide
  have hop : op &&& 0xF = op := by revert op; decide
  rw [OpcodeRow.covers, beq_iff_eq]
  show (((op ++ regBits x) ++ regBits y) ++ nib : Word16) &&& 0xF000 = op ++ (0 : BitVec 12)
  rw [hmask, hpat, BitVec.and_append, BitVec.and_append, BitVec.and_append, hop]
  simp only [and_zero4]

theorem covers_formXYN (m : String) (op : Nibble) (x y : RegIndex) (nib : Nibble) :
    (OpcodeRow.mk m (((op ++ (0 : BitVec 4)) ++ (0 : BitVec 4)) ++ nib) 0xF00F).covers
      (formXYN op x y nib) = true := by
  have hmask : (0xF00F : Word16) = (((0xF : BitVec 4) ++ (0 : BitVec 4)) ++ (0 : BitVec 4)) ++ (0xF : BitVec 4) := by
    decide
  have hop : op &&& 0xF = op := by revert op; decide
  have hnib : nib &&& 0xF = nib := by revert nib; decide
  rw [OpcodeRow.covers, beq_iff_eq]
  show (((op ++ regBits x) ++ regBits y) ++ nib : Word16) &&& 0xF00F = ((op ++ (0 : BitVec 4)) ++ (0 : BitVec 4)) ++ nib
  rw [hmask, BitVec.and_append, BitVec.and_append, BitVec.and_append, hop, hnib]
  simp only [and_zero4]

/-! ## One lemma per constructor -/

theorem TableRow.scd (nib : Nibble) : TableRow.Statement (.scd nib) :=
  ⟨⟨"Scd", 0x00C0, 0xFFF0⟩, by decide, rfl, by revert nib; decide⟩

theorem TableRow.cls : TableRow.Statement .cls :=
  ⟨⟨"Cls", 0x00E0, 0xFFFF⟩, by decide, rfl, rfl⟩

theorem TableRow.ret : TableRow.Statement .ret :=
  ⟨⟨"Ret", 0x00EE, 0xFFFF⟩, by decide, rfl, rfl⟩

theorem TableRow.scr : TableRow.Statement .scr :=
  ⟨⟨"Scr", 0x00FB, 0xFFFF⟩, by decide, rfl, rfl⟩

theorem TableRow.scl : TableRow.Statement .scl :=
  ⟨⟨"Scl", 0x00FC, 0xFFFF⟩, by decide, rfl, rfl⟩

theorem TableRow.exit : TableRow.Statement .exit :=
  ⟨⟨"Exit", 0x00FD, 0xFFFF⟩, by decide, rfl, rfl⟩

theorem TableRow.low : TableRow.Statement .low :=
  ⟨⟨"Low", 0x00FE, 0xFFFF⟩, by decide, rfl, rfl⟩

theorem TableRow.high : TableRow.Statement .high :=
  ⟨⟨"High", 0x00FF, 0xFFFF⟩, by decide, rfl, rfl⟩

theorem TableRow.sys (addr : Addr12) : TableRow.Statement (.sys addr) :=
  ⟨⟨"Sys", 0x0000, 0xF000⟩, by decide, rfl, covers_formAddr "Sys" 0x0 addr⟩

theorem TableRow.jump (addr : Addr12) : TableRow.Statement (.jump addr) :=
  ⟨⟨"Jump", 0x1000, 0xF000⟩, by decide, rfl, covers_formAddr "Jump" 0x1 addr⟩

theorem TableRow.call (addr : Addr12) : TableRow.Statement (.call addr) :=
  ⟨⟨"Call", 0x2000, 0xF000⟩, by decide, rfl, covers_formAddr "Call" 0x2 addr⟩

theorem TableRow.skipEqImm (x : RegIndex) (imm : Byte) : TableRow.Statement (.skipEqImm x imm) :=
  ⟨⟨"SkipEqImm", 0x3000, 0xF000⟩, by decide, rfl, covers_formXImm_any "SkipEqImm" 0x3 x imm⟩

theorem TableRow.skipNeqImm (x : RegIndex) (imm : Byte) : TableRow.Statement (.skipNeqImm x imm) :=
  ⟨⟨"SkipNeqImm", 0x4000, 0xF000⟩, by decide, rfl, covers_formXImm_any "SkipNeqImm" 0x4 x imm⟩

theorem TableRow.skipEqReg (x y : RegIndex) : TableRow.Statement (.skipEqReg x y) :=
  ⟨⟨"SkipEqReg", 0x5000, 0xF00F⟩, by decide, rfl, covers_formXYN "SkipEqReg" 0x5 x y 0x0⟩

theorem TableRow.loadImm (x : RegIndex) (imm : Byte) : TableRow.Statement (.loadImm x imm) :=
  ⟨⟨"LoadImm", 0x6000, 0xF000⟩, by decide, rfl, covers_formXImm_any "LoadImm" 0x6 x imm⟩

theorem TableRow.addImm (x : RegIndex) (imm : Byte) : TableRow.Statement (.addImm x imm) :=
  ⟨⟨"AddImm", 0x7000, 0xF000⟩, by decide, rfl, covers_formXImm_any "AddImm" 0x7 x imm⟩

theorem TableRow.loadReg (x y : RegIndex) : TableRow.Statement (.loadReg x y) :=
  ⟨⟨"LoadReg", 0x8000, 0xF00F⟩, by decide, rfl, covers_formXYN "LoadReg" 0x8 x y 0x0⟩

theorem TableRow.or (x y : RegIndex) : TableRow.Statement (.or x y) :=
  ⟨⟨"Or", 0x8001, 0xF00F⟩, by decide, rfl, covers_formXYN "Or" 0x8 x y 0x1⟩

theorem TableRow.and (x y : RegIndex) : TableRow.Statement (.and x y) :=
  ⟨⟨"And", 0x8002, 0xF00F⟩, by decide, rfl, covers_formXYN "And" 0x8 x y 0x2⟩

theorem TableRow.xor (x y : RegIndex) : TableRow.Statement (.xor x y) :=
  ⟨⟨"Xor", 0x8003, 0xF00F⟩, by decide, rfl, covers_formXYN "Xor" 0x8 x y 0x3⟩

theorem TableRow.addReg (x y : RegIndex) : TableRow.Statement (.addReg x y) :=
  ⟨⟨"AddReg", 0x8004, 0xF00F⟩, by decide, rfl, covers_formXYN "AddReg" 0x8 x y 0x4⟩

theorem TableRow.sub (x y : RegIndex) : TableRow.Statement (.sub x y) :=
  ⟨⟨"Sub", 0x8005, 0xF00F⟩, by decide, rfl, covers_formXYN "Sub" 0x8 x y 0x5⟩

theorem TableRow.shr (x : RegIndex) : TableRow.Statement (.shr x) :=
  ⟨⟨"Shr", 0x8006, 0xF00F⟩, by decide, rfl, covers_formXYN "Shr" 0x8 x 0 0x6⟩

theorem TableRow.subNeg (x y : RegIndex) : TableRow.Statement (.subNeg x y) :=
  ⟨⟨"SubNeg", 0x8007, 0xF00F⟩, by decide, rfl, covers_formXYN "SubNeg" 0x8 x y 0x7⟩

theorem TableRow.shl (x : RegIndex) : TableRow.Statement (.shl x) :=
  ⟨⟨"Shl", 0x800E, 0xF00F⟩, by decide, rfl, covers_formXYN "Shl" 0x8 x 0 0xE⟩

theorem TableRow.skipNeqReg (x y : RegIndex) : TableRow.Statement (.skipNeqReg x y) :=
  ⟨⟨"SkipNeqReg", 0x9000, 0xF00F⟩, by decide, rfl, covers_formXYN "SkipNeqReg" 0x9 x y 0x0⟩

theorem TableRow.loadAddr (addr : Addr12) : TableRow.Statement (.loadAddr addr) :=
  ⟨⟨"LoadAddr", 0xA000, 0xF000⟩, by decide, rfl, covers_formAddr "LoadAddr" 0xA addr⟩

theorem TableRow.jumpAddrPlusV0 (addr : Addr12) : TableRow.Statement (.jumpAddrPlusV0 addr) :=
  ⟨⟨"JumpAddrPlusV0", 0xB000, 0xF000⟩, by decide, rfl, covers_formAddr "JumpAddrPlusV0" 0xB addr⟩

theorem TableRow.randModImm (x : RegIndex) (imm : Byte) : TableRow.Statement (.randModImm x imm) :=
  ⟨⟨"RandModImm", 0xC000, 0xF000⟩, by decide, rfl, covers_formXImm_any "RandModImm" 0xC x imm⟩

theorem TableRow.draw (x y : RegIndex) (nib : Nibble) : TableRow.Statement (.draw x y nib) :=
  ⟨⟨"Draw", 0xD000, 0xF000⟩, by decide, rfl, covers_formXYN_any "Draw" 0xD x y nib⟩

theorem TableRow.skipKey (x : RegIndex) : TableRow.Statement (.skipKey x) :=
  ⟨⟨"SkipKey", 0xE09E, 0xF0FF⟩, by decide, rfl, covers_formXImm "SkipKey" 0xE x 0x9E⟩

theorem TableRow.skipNotKey (x : RegIndex) : TableRow.Statement (.skipNotKey x) :=
  ⟨⟨"SkipNotKey", 0xE0A1, 0xF0FF⟩, by decide, rfl, covers_formXImm "SkipNotKey" 0xE x 0xA1⟩

theorem TableRow.loadRegDelay (x : RegIndex) : TableRow.Statement (.loadRegDelay x) :=
  ⟨⟨"LoadRegDelay", 0xF007, 0xF0FF⟩, by decide, rfl, covers_formXImm "LoadRegDelay" 0xF x 0x07⟩

theorem TableRow.waitKey (x : RegIndex) : TableRow.Statement (.waitKey x) :=
  ⟨⟨"WaitKey", 0xF00A, 0xF0FF⟩, by decide, rfl, covers_formXImm "WaitKey" 0xF x 0x0A⟩

theorem TableRow.loadDelayReg (x : RegIndex) : TableRow.Statement (.loadDelayReg x) :=
  ⟨⟨"LoadDelayReg", 0xF015, 0xF0FF⟩, by decide, rfl, covers_formXImm "LoadDelayReg" 0xF x 0x15⟩

theorem TableRow.loadSoundReg (x : RegIndex) : TableRow.Statement (.loadSoundReg x) :=
  ⟨⟨"LoadSoundReg", 0xF018, 0xF0FF⟩, by decide, rfl, covers_formXImm "LoadSoundReg" 0xF x 0x18⟩

theorem TableRow.addAddrReg (x : RegIndex) : TableRow.Statement (.addAddrReg x) :=
  ⟨⟨"AddAddrReg", 0xF01E, 0xF0FF⟩, by decide, rfl, covers_formXImm "AddAddrReg" 0xF x 0x1E⟩

theorem TableRow.loadAddrDigit (x : RegIndex) : TableRow.Statement (.loadAddrDigit x) :=
  ⟨⟨"LoadAddrDigit", 0xF029, 0xF0FF⟩, by decide, rfl, covers_formXImm "LoadAddrDigit" 0xF x 0x29⟩

theorem TableRow.loadAddrBigDigit (x : RegIndex) : TableRow.Statement (.loadAddrBigDigit x) :=
  ⟨⟨"LoadAddrBigDigit", 0xF030, 0xF0FF⟩, by decide, rfl, covers_formXImm "LoadAddrBigDigit" 0xF x 0x30⟩

theorem TableRow.memStoreBcd (x : RegIndex) : TableRow.Statement (.memStoreBcd x) :=
  ⟨⟨"MemStoreBcd", 0xF033, 0xF0FF⟩, by decide, rfl, covers_formXImm "MemStoreBcd" 0xF x 0x33⟩

theorem TableRow.memStoreRegs (x : RegIndex) : TableRow.Statement (.memStoreRegs x) :=
  ⟨⟨"MemStoreRegs", 0xF055, 0xF0FF⟩, by decide, rfl, covers_formXImm "MemStoreRegs" 0xF x 0x55⟩

theorem TableRow.memLoadRegs (x : RegIndex) : TableRow.Statement (.memLoadRegs x) :=
  ⟨⟨"MemLoadRegs", 0xF065, 0xF0FF⟩, by decide, rfl, covers_formXImm "MemLoadRegs" 0xF x 0x65⟩

theorem TableRow.rplStoreRegs (x : RegIndex) : TableRow.Statement (.rplStoreRegs x) :=
  ⟨⟨"RplStoreRegs", 0xF075, 0xF0FF⟩, by decide, rfl, covers_formXImm "RplStoreRegs" 0xF x 0x75⟩

theorem TableRow.rplLoadRegs (x : RegIndex) : TableRow.Statement (.rplLoadRegs x) :=
  ⟨⟨"RplLoadRegs", 0xF085, 0xF0FF⟩, by decide, rfl, covers_formXImm "RplLoadRegs" 0xF x 0x85⟩

end Sys2Proof.Laws
end

