-- ==== Sys2Proof/Tests/Slice0.lean ====
section
/-! SUPPORT. The model's own tests. A word is written out from the spec's encoding (30_encoding.md R71–R79); a one-step
result is a vector of 95_test_vectors.md, named in the comment, or worked by hand from the rule named there. The last
part holds a witness for the hypotheses of each statement that has some. -/

namespace Sys2Proof.Tests

open Sys2Proof Sys2Proof.Machine Sys2Proof.Claims

set_option maxRecDepth 20000
set_option Elab.async false

/-! ## WellFormed refuses each special form spelled as `Sys` (R84) -/

theorem test_wf_refuses_scd_first : (Instr.sys 0x0C0).wellFormed = false := by decide
theorem test_wf_refuses_scd_last : (Instr.sys 0x0CF).wellFormed = false := by decide
theorem test_wf_refuses_cls : (Instr.sys 0x0E0).wellFormed = false := by decide
theorem test_wf_refuses_ret : (Instr.sys 0x0EE).wellFormed = false := by decide
theorem test_wf_refuses_scr_to_high :
    [0x0FB, 0x0FC, 0x0FD, 0x0FE, 0x0FF].all (fun a => !(Instr.sys a).wellFormed) = true := by decide
theorem test_wf_accepts_neighbours :
    [0x0BF, 0x0D0, 0x0DF, 0x0E1, 0x0ED, 0x0EF, 0x0FA, 0x100].all (fun a => (Instr.sys a).wellFormed) = true := by decide

/-! ## Decoding, one word a constructor, bit by bit: op, x, y or the middle digit, the low digit (R71, R75–R79) -/

theorem test_decode_scd : decode 0b0000_0000_1100_0101 = some (.scd 5) := by decide
theorem test_decode_cls : decode 0b0000_0000_1110_0000 = some .cls := by decide
theorem test_decode_ret : decode 0b0000_0000_1110_1110 = some .ret := by decide
theorem test_decode_scr : decode 0b0000_0000_1111_1011 = some .scr := by decide
theorem test_decode_scl : decode 0b0000_0000_1111_1100 = some .scl := by decide
theorem test_decode_exit : decode 0b0000_0000_1111_1101 = some .exit := by decide
theorem test_decode_low : decode 0b0000_0000_1111_1110 = some .low := by decide
theorem test_decode_high : decode 0b0000_0000_1111_1111 = some .high := by decide
theorem test_decode_sys : decode 0b0000_0001_0010_0011 = some (.sys 0x123) := by decide
theorem test_decode_jump : decode 0b0001_1010_1011_1100 = some (.jump 0xABC) := by decide
theorem test_decode_call : decode 0b0010_1010_1011_1100 = some (.call 0xABC) := by decide
theorem test_decode_skipEqImm : decode 0b0011_1010_0101_1100 = some (.skipEqImm 10 0x5C) := by decide
theorem test_decode_skipNeqImm : decode 0b0100_1010_0101_1100 = some (.skipNeqImm 10 0x5C) := by decide
theorem test_decode_skipEqReg : decode 0b0101_0001_0010_0000 = some (.skipEqReg 1 2) := by decide
theorem test_decode_loadImm : decode 0b0110_1010_0101_1100 = some (.loadImm 10 0x5C) := by decide
theorem test_decode_addImm : decode 0b0111_1010_0101_1100 = some (.addImm 10 0x5C) := by decide
theorem test_decode_loadReg : decode 0b1000_0001_0010_0000 = some (.loadReg 1 2) := by decide
theorem test_decode_or : decode 0b1000_0001_0010_0001 = some (.or 1 2) := by decide
theorem test_decode_and : decode 0b1000_0001_0010_0010 = some (.and 1 2) := by decide
theorem test_decode_xor : decode 0b1000_0001_0010_0011 = some (.xor 1 2) := by decide
theorem test_decode_addReg : decode 0b1000_0001_0010_0100 = some (.addReg 1 2) := by decide
theorem test_decode_sub : decode 0b1000_0001_0010_0101 = some (.sub 1 2) := by decide
theorem test_decode_shr : decode 0b1000_1010_1011_0110 = some (.shr 10) := by decide
theorem test_decode_subNeg : decode 0b1000_0001_0010_0111 = some (.subNeg 1 2) := by decide
theorem test_decode_shl : decode 0b1000_1010_1011_1110 = some (.shl 10) := by decide
theorem test_decode_skipNeqReg : decode 0b1001_1010_1011_0000 = some (.skipNeqReg 10 11) := by decide
theorem test_decode_loadAddr : decode 0b1010_1111_1110_1101 = some (.loadAddr 0xFED) := by decide
theorem test_decode_jumpAddrPlusV0 : decode 0b1011_1111_1110_1101 = some (.jumpAddrPlusV0 0xFED) := by decide
theorem test_decode_randModImm : decode 0b1100_1010_1111_1111 = some (.randModImm 10 0xFF) := by decide
theorem test_decode_draw : decode 0b1101_0001_1111_0011 = some (.draw 1 15 3) := by decide
theorem test_decode_skipKey : decode 0b1110_0001_1001_1110 = some (.skipKey 1) := by decide
theorem test_decode_skipNotKey : decode 0b1110_0001_1010_0001 = some (.skipNotKey 1) := by decide
theorem test_decode_loadRegDelay : decode 0b1111_0001_0000_0111 = some (.loadRegDelay 1) := by decide
theorem test_decode_waitKey : decode 0b1111_0101_0000_1010 = some (.waitKey 5) := by decide
theorem test_decode_loadDelayReg : decode 0b1111_0001_0001_0101 = some (.loadDelayReg 1) := by decide
theorem test_decode_loadSoundReg : decode 0b1111_0001_0001_1000 = some (.loadSoundReg 1) := by decide
theorem test_decode_addAddrReg : decode 0b1111_0001_0001_1110 = some (.addAddrReg 1) := by decide
theorem test_decode_loadAddrDigit : decode 0b1111_0011_0010_1001 = some (.loadAddrDigit 3) := by decide
theorem test_decode_loadAddrBigDigit : decode 0b1111_0101_0011_0000 = some (.loadAddrBigDigit 5) := by decide
theorem test_decode_memStoreBcd : decode 0b1111_0010_0011_0011 = some (.memStoreBcd 2) := by decide
theorem test_decode_memStoreRegs : decode 0b1111_0010_0101_0101 = some (.memStoreRegs 2) := by decide
theorem test_decode_memLoadRegs : decode 0b1111_0010_0110_0101 = some (.memLoadRegs 2) := by decide
theorem test_decode_rplStoreRegs : decode 0b1111_1001_0111_0101 = some (.rplStoreRegs 9) := by decide
theorem test_decode_rplLoadRegs : decode 0b1111_0010_1000_0101 = some (.rplLoadRegs 2) := by decide
theorem test_reject_family5 : decodeWord 0x5121 = .error .family5LowNibble := by decide +kernel
theorem test_reject_family8 : decodeWord 0x812F = .error .family8Function := by decide +kernel
theorem test_reject_family9 : decodeWord 0x9AB1 = .error .family9LowNibble := by decide +kernel
theorem test_reject_familyE : decodeWord 0xE19F = .error .familyEFunction := by decide +kernel
theorem test_reject_familyF : decodeWord 0xF090 = .error .familyFFunction := by decide +kernel
theorem test_reject_short : decodeBytes [0x60] = .error .tooFewBytes := by decide +kernel

/-! ## One step on a small state -/

/-- Reset with some general registers set. -/
def regs (l : List (RegIndex × Byte)) : State := l.foldl (fun s p => s.setReg p.1 p.2) State.reset

/-- Reset with `I` set. -/
def index (i : Word16) (s : State) : State := { s with i := i }

/-- The step that runs the word placed at `PC` gives a next state with the property. -/
def runs (s : State) (word : Nat) (p : State → Bool) : Bool :=
  match step (s.withFetchWord 16 word) with
  | .next t => p t
  | _ => false

/-- The step that runs the word placed at `PC` is the fault. -/
def faults (s : State) (word : Nat) (e : Fault) : Bool :=
  match step (s.withFetchWord 16 word) with
  | .fault f => f == e
  | _ => false

/-- One step from the state gives a next state with the property. -/
def steps (s : State) (p : State → Bool) : Bool :=
  match step s with
  | .next t => p t
  | _ => false

/-- The meaning of the instruction gives a next state with the property. -/
def gives (i : Instr) (s : State) (p : State → Bool) : Bool :=
  match exec i s with
  | .next t => p t
  | _ => false

/-- The meaning of the instruction is the fault. -/
def stops (i : Instr) (s : State) (e : Fault) : Bool :=
  match exec i s with
  | .fault f => f == e
  | _ => false

/-- Reset under `HOST_ON_FAULT = continue`. -/
def going : State := { State.reset with onFault := .goOn }

/-- K1. -/
theorem test_jump : runs .reset 0x1ABC (fun t => t.pc == 0xABC) = true := by decide +kernel
/-- K2. -/
theorem test_sys : runs .reset 0x0ABC (fun t => t.pc == 0xABC) = true := by decide +kernel
/-- K3. -/
theorem test_jump_plus_v0 : runs (regs [(0, 0x10)]) 0xB300 (fun t => t.pc == 0x310) = true := by decide +kernel
/-- K4. -/
theorem test_jump_plus_v0_wraps : runs (regs [(0, 0x02)]) 0xBFFF (fun t => t.pc == 0x001) = true := by decide +kernel
/-- K6. -/
theorem test_call : runs .reset 0x2204 (fun t => t.pc == 0x204 && t.sp == 1 && t.stack[0] == 0x202) = true := by decide +kernel
/-- K8, step 17. -/
theorem test_call_overflow : faults { State.reset with sp := 16 } 0x2200 .stackOverflow = true := by decide +kernel
/-- K7. -/
theorem test_ret : runs { State.reset with sp := 1, stack := State.reset.stack.set 0 0x202 } 0x00EE
    (fun t => t.pc == 0x202 && t.sp == 0 && t.stack[0] == 0x202) = true := by decide +kernel
/-- K9, under `continue`: `PC` advanced. -/
theorem test_ret_underflow : runs going 0x00EE
    (fun t => t.returned == some .stackUnderflow && t.pc == 0x202 && t.sp == 0) = true := by decide +kernel
/-- K10, K11. -/
theorem test_skip_eq_imm : (runs (regs [(0, 0x25)]) 0x3025 (fun t => t.pc == 0x204) &&
    runs (regs [(0, 0x24)]) 0x3025 (fun t => t.pc == 0x202)) = true := by decide +kernel
/-- K12. -/
theorem test_skip_neq_imm : (runs (regs [(0, 0x25)]) 0x4025 (fun t => t.pc == 0x202) &&
    runs (regs [(0, 0x24)]) 0x4025 (fun t => t.pc == 0x204)) = true := by decide +kernel
/-- K13. -/
theorem test_skip_eq_reg : (runs (regs [(0, 7), (1, 7)]) 0x5010 (fun t => t.pc == 0x204) &&
    runs (regs [(0, 7), (1, 8)]) 0x5010 (fun t => t.pc == 0x202)) = true := by decide +kernel
/-- K14. -/
theorem test_skip_neq_reg : (runs (regs [(0, 7), (1, 7)]) 0x9010 (fun t => t.pc == 0x202) &&
    runs (regs [(0, 7), (1, 8)]) 0x9010 (fun t => t.pc == 0x204)) = true := by decide +kernel
/-- K20. -/
theorem test_skip_past_the_top : runs { State.reset with pc := 0xFFE } 0x3000 (fun t => t.pc == 0x1002) = true := by decide +kernel
/-- K16. -/
theorem test_exit : runs .reset 0x00FD (fun t => t.power == .halted && t.pc == 0x202) = true := by decide +kernel
/-- K17, step 2. -/
theorem test_fetch_top : runs { State.reset with pc := 0xFFE } 0x6025 (fun t => t.reg 0 == 0x25 && t.pc == 0x1000) = true := by decide +kernel
/-- K18, step 2, under `continue`: `PC` stays. -/
theorem test_fetch_past_top : steps { going with pc := 0xFFF, schedule := [.step] }
    (fun t => t.returned == some .invalidOpcode && t.pc == 0xFFF) = true := by decide +kernel
/-- 2.1: a step on an invalid word, under `continue`. -/
theorem test_invalid_word_keeps_pc : runs going 0x5121 (fun t => t.returned == some .invalidOpcode && t.pc == 0x200) = true := by decide +kernel
/-- S19. -/
theorem test_load_imm : runs .reset 0x6025 (fun t => t.reg 0 == 0x25 && t.pc == 0x202) = true := by decide +kernel
/-- L2. -/
theorem test_load_reg : runs (regs [(2, 0x5A)]) 0x8120 (fun t => t.reg 1 == 0x5A) = true := by decide +kernel
/-- L3. -/
theorem test_load_addr : runs .reset 0xAFFF (fun t => t.i == 0xFFF) = true := by decide +kernel
/-- L5. -/
theorem test_load_addr_digit : runs (regs [(0, 0x0F)]) 0xF029 (fun t => t.i == 0x04B) = true := by decide +kernel
/-- L6. -/
theorem test_load_addr_digit_fails : faults (regs [(0, 0x10)]) 0xF029 .invalidDigitSprite = true := by decide +kernel
/-- L7, under `continue`: `PC` advanced. -/
theorem test_load_addr_big_digit : runs going 0xF530 (fun t => t.returned == some .invalidOpcode && t.pc == 0x202) = true := by decide +kernel
/-- L8. -/
theorem test_load_reg_delay : runs { State.reset with dt := 4 } 0xF107 (fun t => t.reg 1 == 4 && t.dt == 4) = true := by decide +kernel
/-- L9. -/
theorem test_load_delay_reg : runs (regs [(0, 5)]) 0xF015 (fun t => t.dt == 5 && t.st == 0) = true := by decide +kernel
/-- L10. -/
theorem test_load_sound_reg : runs (regs [(0, 5)]) 0xF018 (fun t => t.st == 5 && t.dt == 0) = true := by decide +kernel
/-- A1. -/
theorem test_add_imm : runs (regs [(0, 0xFF), (15, 7)]) 0x7001 (fun t => t.reg 0 == 0 && t.reg 15 == 7) = true := by decide +kernel
/-- A4. -/
theorem test_add_addr_reg : runs (index 0xFF0 (regs [(0, 0xFF)])) 0xF01E (fun t => t.i == 0x0EF) = true := by decide +kernel
/-- S6. -/
theorem test_add_reg : runs (regs [(0, 0xFE), (1, 0x03)]) 0x8014 (fun t => t.reg 0 == 1 && t.reg 15 == 1 && t.pc == 0x202) = true := by decide +kernel
/-- A7. -/
theorem test_add_reg_into_vf : runs (regs [(15, 0xFF), (0, 2)]) 0x8F04 (fun t => t.reg 15 == 1) = true := by decide +kernel
/-- S9. -/
theorem test_sub : runs (regs [(0, 3), (1, 5)]) 0x8015 (fun t => t.reg 0 == 0xFE && t.reg 15 == 0) = true := by decide +kernel
/-- A9. -/
theorem test_sub_equal : runs (regs [(0, 7), (1, 7)]) 0x8015 (fun t => t.reg 0 == 0 && t.reg 15 == 0) = true := by decide +kernel
/-- A13. -/
theorem test_sub_neg : runs (regs [(0, 3), (1, 5)]) 0x8017 (fun t => t.reg 0 == 2 && t.reg 15 == 1) = true := by decide +kernel
/-- A16. -/
theorem test_sub_neg_into_vf : runs (regs [(15, 3), (0, 5)]) 0x8F07 (fun t => t.reg 15 == 1) = true := by decide +kernel
/-- A17. -/
theorem test_or : runs (regs [(0, 0xF0), (1, 0x0F), (15, 9)]) 0x8011 (fun t => t.reg 0 == 0xFF && t.reg 15 == 9) = true := by decide +kernel
/-- A18. -/
theorem test_and : runs (regs [(0, 0xF0), (1, 0x3C), (15, 9)]) 0x8012 (fun t => t.reg 0 == 0x30 && t.reg 15 == 9) = true := by decide +kernel
/-- A19. -/
theorem test_xor : runs (regs [(0, 0xF0), (1, 0x3C), (15, 9)]) 0x8013 (fun t => t.reg 0 == 0xCC && t.reg 15 == 9) = true := by decide +kernel
/-- A21. -/
theorem test_shr : runs (regs [(0, 3), (1, 0xF0)]) 0x8016 (fun t => t.reg 0 == 1 && t.reg 15 == 1 && t.reg 1 == 0xF0) = true := by decide +kernel
/-- A23. -/
theorem test_shr_of_vf : runs (regs [(15, 3)]) 0x8F06 (fun t => t.reg 15 == 0) = true := by decide +kernel
/-- S11. -/
theorem test_shl : runs (regs [(0, 0xC0)]) 0x800E (fun t => t.reg 0 == 0x80 && t.reg 15 == 1) = true := by decide +kernel
/-- A24. -/
theorem test_shl_of_vf : runs (regs [(15, 0x81)]) 0x8F0E (fun t => t.reg 15 == 2) = true := by decide +kernel
/-- A26, A27, A28: the reduction of a drawn byte; the byte itself is free. -/
theorem test_rand_reduction : (remainderImm 200 0x0A == 2 && remainderImm 0x0F 0x0A == 4 && remainderImm 0xAB 0xFF == 0xAB) = true := by decide +kernel
/-- W1, the last step: `(62, 31)`, bytes `FF 81`, low resolution. -/
theorem test_draw_wraps : runs (index 0x300 { regs [(0, 62), (1, 31)] with mem := Memory.writeMany [] 0x300 [0xFF, 0x81] }) 0xD012
    (fun t => t.fb.cell 31 62 && t.fb.cell 31 63 && t.fb.cell 31 0 && t.fb.cell 31 5 && !t.fb.cell 31 6 &&
      t.fb.cell 0 62 && t.fb.cell 0 5 && !t.fb.cell 0 63 && !t.fb.cell 32 62 && !t.fb.cell 31 64 && t.reg 15 == 0) = true := by decide +kernel
/-- W3, the last step: 16 times `80 01` at `(56, 24)`, low resolution. -/
theorem test_draw_large_wraps : runs (index 0x300 { regs [(0, 56), (1, 24)] with
      mem := Memory.writeMany [] 0x300 (List.replicate 16 [0x80, 0x01]).flatten }) 0xD010
    (fun t => t.fb.cell 24 56 && t.fb.cell 31 7 && t.fb.cell 0 56 && t.fb.cell 7 7 && !t.fb.cell 8 56 &&
      !t.fb.cell 24 57 && !t.fb.cell 23 56 && t.reg 15 == 0) = true := by decide +kernel
/-- W13, the last step: a hidden cell stays lit. -/
theorem test_cls : runs { State.reset with fb := (State.reset.fb.xorCell 32 64 true).xorCell 31 63 true } 0x00E0
    (fun t => t.fb.cell 32 64 && !t.fb.cell 31 63) = true := by decide +kernel
/-- W10, the last step. -/
theorem test_scd : runs { State.reset with fb := State.reset.fb.xorCell 31 0 true } 0x00C1
    (fun t => t.fb.cell 32 0 && !t.fb.cell 31 0) = true := by decide +kernel
/-- W11, the last step. -/
theorem test_scr : runs { State.reset with fb := (State.reset.fb.xorCell 0 0 true).xorCell 0 7 true } 0x00FB
    (fun t => t.fb.cell 0 4 && t.fb.cell 0 11 && !t.fb.cell 0 0 && !t.fb.cell 0 7) = true := by decide +kernel
/-- W14, the last step. -/
theorem test_scl : runs { State.reset with fb := (State.reset.fb.xorCell 0 64 true).xorCell 0 67 true } 0x00FC
    (fun t => t.fb.cell 0 60 && t.fb.cell 0 63 && !t.fb.cell 0 64 && !t.fb.cell 0 67) = true := by decide +kernel
/-- R174. -/
theorem test_high : runs .reset 0x00FF (fun t => t.hires) = true := by decide +kernel
/-- R173. -/
theorem test_low : runs { State.reset with hires := true } 0x00FE (fun t => !t.hires) = true := by decide +kernel
/-- Y1, Y2. -/
theorem test_skip_key : (runs { regs [(0, 0x0A)] with key := State.reset.key.set 10 true } 0xE09E (fun t => t.pc == 0x204) &&
    runs (regs [(0, 0x0A)]) 0xE09E (fun t => t.pc == 0x202)) = true := by decide +kernel
/-- Y5. -/
theorem test_skip_key_unspecified : faults (regs [(0, 0x10)]) 0xE09E .unspecified = true := by decide +kernel
/-- Y3, Y4. -/
theorem test_skip_not_key : (runs (regs [(0, 0x0A)]) 0xE0A1 (fun t => t.pc == 0x204) &&
    runs { regs [(0, 0x0A)] with key := State.reset.key.set 10 true } 0xE0A1 (fun t => t.pc == 0x202)) = true := by decide +kernel
/-- Y6. -/
theorem test_wait_key : runs { State.reset with keyAnswers := [.code 7] } 0xF50A
    (fun t => t.reg 5 == 7 && t.pc == 0x202 && t.waiting == none) = true := by decide +kernel
/-- Y7. -/
theorem test_wait_key_failure : faults { State.reset with keyAnswers := [.failure "closed"] } 0xF50A (.unknown "closed") = true := by decide +kernel
/-- Y8: the step stays in progress, `PC` advanced once. -/
theorem test_wait_key_blocks : runs .reset 0xF50A (fun t => t.waiting == some 5 && t.pc == 0x202 && t.reg 5 == 0) = true := by decide +kernel
/-- M1. -/
theorem test_mem_store_bcd : runs (index 0xFFC (regs [(0, 255)])) 0xF033
    (fun t => t.mem.read 0xFFC == 2 && t.mem.read 0xFFD == 5 && t.mem.read 0xFFE == 5 && t.mem.read 0xFFF == 0) = true := by decide +kernel
/-- M2. -/
theorem test_mem_store_bcd_fails : faults (index 0xFFD (regs [(0, 255)])) 0xF033 .addressOutOfRange = true := by decide +kernel
/-- M4. -/
theorem test_mem_store_regs : runs (index 0xFEF (regs [(0, 1), (15, 0xEE)])) 0xFF55
    (fun t => t.mem.read 0xFEF == 1 && t.mem.read 0xFFE == 0xEE && t.i == 0xFEF) = true := by decide +kernel
/-- M5. -/
theorem test_mem_store_regs_fails : faults (index 0xFF0 .reset) 0xFF55 .addressOutOfRange = true := by decide +kernel
/-- M8: inclusive of `V[x]`, the register after it untouched. -/
theorem test_mem_load_regs : runs (index 0x400 { regs [(3, 9)] with mem := Memory.writeMany [] 0x400 [1, 2, 3, 4] }) 0xF265
    (fun t => t.reg 0 == 1 && t.reg 2 == 3 && t.reg 3 == 9 && t.i == 0x400) = true := by decide +kernel
/-- M7. -/
theorem test_mem_load_regs_fails : faults (index 0xFFF .reset) 0xF065 .addressOutOfRange = true := by decide +kernel
/-- M12. -/
theorem test_rpl_store_regs : runs (regs [(0, 0x10), (1, 0x11), (2, 0x12), (3, 0x13)]) 0xF375
    (fun t => t.rpl[0] == 0x10 && t.rpl[2] == 0x12 && t.rpl[3] == 0) = true := by decide +kernel
/-- M10. -/
theorem test_rpl_store_regs_fails : faults .reset 0xF975 (.registerOutOfRange 9) = true := by decide +kernel
/-- M14. -/
theorem test_rpl_load_regs : runs { State.reset with rpl := #v[0xA0, 0xA1, 0xA2, 0xA3, 0xA4, 0xA5, 0xA6, 0xA7] } 0xF285
    (fun t => t.reg 0 == 0xA0 && t.reg 1 == 0xA1 && t.reg 2 == 0) = true := by decide +kernel
/-- M15. -/
theorem test_rpl_load_regs_fails : faults .reset 0xFF85 (.registerOutOfRange 15) = true := by decide +kernel

/-! ## Host events -/

/-- T1, T3. -/
theorem test_tick : steps { State.reset with schedule := [.tick], st := 3, power := .halted } (fun t => t.dt == 0 && t.st == 2) = true := by decide +kernel
/-- T4. -/
theorem test_key_pressed : steps { State.reset with schedule := [.keyPressed 3] } (fun t => t.key[3] && !t.key[2]) = true := by decide +kernel
/-- The load of S19. -/
theorem test_load_rom : steps { State.reset with schedule := [.loadRom [0x60, 0x25]] }
    (fun t => t.mem.read 0x200 == 0x60 && t.mem.read 0x201 == 0x25 && !t.romOpen) = true := by decide +kernel
/-- B4, step 1. -/
theorem test_boot_without_rom : steps { State.reset with schedule := [.step] } (fun t => t.pc == 0) = true := by decide +kernel
/-- R192: the answer comes while a `tick` is due, which is not applied. -/
theorem test_wait_key_answered_later : steps { State.reset with waiting := some 5, keyAnswers := [.code 7], schedule := [.tick], dt := 3 }
    (fun t => t.reg 5 == 7 && t.waiting == none && t.schedule == [.tick] && t.dt == 3) = true := by decide +kernel
/-- The free moves of the host are the events of their names (R236, R238). -/
theorem test_free_moves : HostMove.step.toEvent = .step ∧ HostMove.tick.toEvent = .tick ∧
    (HostMove.keyPressed 3).toEvent = .keyPressed 3 ∧ (HostMove.keyReleased 3).toEvent = .keyReleased 3 := by decide

/-! ## Witnesses

For each statement with hypotheses, concrete states and operands that meet them, at a boundary of each clause. A
statement about a next state has a witness that the next state is there. -/

/-- One register byte at 15 or 16, for the clauses that split there. -/
def digit (b : Byte) : State := regs [(0, b)]

/-- Reset with one event next. -/
def next (e : HostEvent) : State := { State.reset with schedule := [e] }

/-- Reset with a word placed at `PC`. -/
def placed (word : Nat) : State := State.reset.withFetchWord 16 word

/-- Halted after reset. -/
def off : State := { State.reset with power := .halted }

/-- A state inside a subroutine: one return address pushed. -/
def inCall : State := { State.reset with sp := 1, stack := State.reset.stack.set 0 0x202 }

theorem witness_DecodeInvertsEncode : (Instr.sys 0x0E1).WellFormed ∧ (Instr.sys 0x0FA).WellFormed ∧ (Instr.draw 1 15 0).WellFormed :=
    by decide +kernel
theorem witness_EncodeInvertsDecode : decode 0xD1F3 = some (.draw 1 15 3) ∧ decode 0x8AB6 = some (.shr 10) ∧ decode 0x80FE = some (.shl 0) :=
    by decide +kernel
theorem witness_InvalidWordsAreExactlyFiveKinds : decode 0x5FFF = none ∧ decode 0x8008 = none ∧ decode 0x800F = none ∧ decode 0x9001 = none ∧ decode 0xE000 = none ∧
    decode 0xFFFF = none ∧ decode 0x800E ≠ none :=
    by decide +kernel
theorem witness_EveryPatternDecodesToItsOperands : ([0x0BF, 0x0D0, 0x0DF, 0x0E1, 0x0ED, 0x0EF, 0x0FA, 0x100] : List Addr12).all (fun a => !isSpecialAddr a) = true :=
    by decide +kernel

theorem witness_StepRunsDecodedInstruction : Issues (placed 0x6025) .step { placed 0x6025 with schedule := [] } ∧ (placed 0x6025).power = .running ∧
    (placed 0x6025).pc.toNat ≤ 0xFFE ∧ decode (wordAtPc (placed 0x6025)) = some (.loadImm 0 0x25) :=
    ⟨⟨rfl, .inl ⟨[], rfl, rfl⟩⟩, by decide +kernel⟩
theorem witness_StepRunsDecodedInstruction_top : Issues { State.reset with pc := 0xFFE, schedule := [.step, .tick] } .step
      { State.reset with pc := 0xFFE, schedule := [.tick] } ∧
    decode (wordAtPc { State.reset with pc := 0xFFE }) = some (.sys 0) :=
    ⟨⟨rfl, .inl ⟨[.tick], rfl, rfl⟩⟩, by decide +kernel⟩
/-- The schedule used up, the next event is a free move, whichever it is. -/
theorem witness_Issues_free : Issues .reset (Config.hostMove 0).toEvent { State.reset with moves := 1 } :=
    ⟨rfl, .inr ⟨rfl, rfl, rfl⟩⟩
theorem witness_FetchOrDecodeFailureKeepsPc_fetch : Issues { next .step with pc := 0xFFF } .step { State.reset with pc := 0xFFF } ∧ 0xFFF ≤ (0xFFF : Word16).toNat ∧
    State.reset.onFault = .stop :=
    ⟨⟨rfl, .inl ⟨[], rfl, rfl⟩⟩, by decide, rfl⟩
theorem witness_FetchOrDecodeFailureKeepsPc_decode : Issues { going with pc := 0, schedule := [.step] } .step { going with pc := 0 } ∧
    decode (wordAtPc { going with pc := 0 }) = none ∧ going.onFault = .goOn :=
    ⟨⟨rfl, .inl ⟨[], rfl, rfl⟩⟩, by decide +kernel, rfl⟩
theorem witness_HaltedStepDoesNothing : Issues { off with schedule := [.step] } .step off ∧ off.power = .halted :=
    ⟨⟨rfl, .inl ⟨[], rfl, rfl⟩⟩, rfl⟩

/-- The invariant at the states above: reset with other values of fields it does not bound. -/
theorem inv_of_reset (power : Power) (schedule : List HostEvent) :
    State.Inv { State.reset with power := power, schedule := schedule } :=
  ⟨rfl, by simp [State.reset], by simp [State.reset], by simp [State.reset], fun k => by simp [State.reset],
    fun h => absurd rfl h⟩

theorem witness_HaltedIsTerminal : ∃ s t, State.Inv s ∧ s.power = .halted ∧ step s = .next t ∧ s.romOpen = true :=
    ⟨_, _, inv_of_reset .halted [.tick], rfl, rfl, rfl⟩
theorem witness_HaltedIsTerminal_closed : ∃ t, off.power = .halted ∧ step { off with romOpen := false, schedule := [.step] } = .next t :=
    ⟨_, rfl, rfl⟩
theorem witness_TickLowersBothTimers : Issues (next .tick) .tick .reset := ⟨rfl, .inl ⟨[], rfl, rfl⟩⟩
theorem witness_KeyEventsWriteTheLatch : Issues (next (.keyPressed 15)) (.keyPressed 15) .reset ∧ Issues (next (.keyReleased 0)) (.keyReleased 0) .reset :=
    ⟨⟨rfl, .inl ⟨[], rfl, rfl⟩⟩, ⟨rfl, .inl ⟨[], rfl, rfl⟩⟩⟩
/-- S15, B1. -/
theorem witness_LoadRomCopiesTheImage_fits : State.reset.mem.wf = true ∧ Issues (next (.loadRom (List.replicate 3584 7))) (.loadRom (List.replicate 3584 7)) .reset ∧
    State.reset.romOpen = true ∧ (List.replicate 3584 (7 : Byte)).length ≤ 3584 :=
    ⟨rfl, ⟨rfl, .inl ⟨[], rfl, rfl⟩⟩, rfl, by simp⟩
/-- B2. -/
theorem witness_LoadRomCopiesTheImage_tooLarge : State.reset.romOpen = true ∧ 3584 < (List.replicate 3585 (7 : Byte)).length ∧ State.reset.onFault = .stop ∧
    going.romOpen = true ∧ going.onFault = .goOn :=
    ⟨rfl, by simp, rfl, rfl, rfl⟩
theorem witness_LoadRomCopiesTheImage_closed : Issues { next (.loadRom []) with romOpen := false } (.loadRom []) { State.reset with romOpen := false } :=
    ⟨rfl, .inl ⟨[], rfl, rfl⟩⟩
/-- With no listed answer the provider is silent or answers, as the free value says. -/
theorem witness_WaitKeyInProgressBlocks : ∃ s : State, s.waiting = some 5 ∧ s.keyAnswers = [] ∧
    (Config.keyAnswer s.asks = none ∨ ∃ a, Answers s a { s with asks := s.asks + 1 }) :=
    by
  refine ⟨{ State.reset with waiting := some 5 }, rfl, rfl, ?_⟩
  cases h : Config.keyAnswer 0 with
  | none => exact .inl h
  | some a => exact .inr ⟨a, .inr ⟨rfl, h, rfl⟩⟩
theorem witness_WaitKeyInProgressBlocks_code : ∃ s u : State, s.waiting = some 5 ∧ Answers s (.code 15) u :=
    ⟨{ State.reset with waiting := some 5, keyAnswers := [.code 15] }, _, rfl, .inl ⟨[], rfl, rfl⟩⟩
theorem witness_WaitKeyInProgressBlocks_failure : ∃ s u : State, s.waiting = some 5 ∧ Answers s (.failure "closed") u ∧ s.onFault = .goOn :=
    ⟨{ going with waiting := some 5, keyAnswers := [.failure "closed"] }, _, rfl, .inl ⟨[], rfl, rfl⟩, rfl⟩
theorem witness_EveryStepKeepsInvariant : ∃ s t, State.Inv s ∧ step s = .next t :=
    ⟨_, _, inv_of_reset .running [.step], rfl⟩
theorem witness_SnapshotIsTheEffectiveWindow : (31 : Fin 64).val < eh .reset ∧ (63 : Fin 128).val < ew .reset ∧ eh { State.reset with hires := true } = 64 :=
    by decide
theorem witness_CanonicalMemoriesThatReadAlikeAreEqual : Memory.wf [(0x200, 1), (0xFFF, 2)] = true ∧ Memory.wf [(0x200, 0)] = false :=
    by decide +kernel

theorem witness_SequencerFetchesDecodesAdvancesExecutes : off.power = .halted ∧ State.reset.power = .running ∧ 0xFFF ≤ (0xFFF : Word16).toNat ∧ going.onFault = .goOn ∧
    decode (wordAtPc { State.reset with pc := 0 }) = none ∧ decode (wordAtPc { State.reset with pc := 0xFFE }) = some (.sys 0) :=
    by decide +kernel
theorem witness_MemoryPortsCheckTheirRange : Memory.wf [] = true ∧ 4095 < 4096 ∧ 4096 ≤ 4096 ∧ 0xFFE + 1 < 4096 ∧ 4096 ≤ 0xFFF + 1 :=
    by decide +kernel
theorem witness_CallPushesReturnAddressOrOverflows : ({ State.reset with sp := 15 } : State).sp.toNat < 16 ∧ ({ State.reset with sp := 16 } : State).sp.toNat = 16 :=
    by decide
theorem witness_RetPopsIntoPcOrUnderflows : inCall.sp.toNat = (0 : Fin 16).val + 1 ∧ ({ State.reset with sp := 16 } : State).sp.toNat = (15 : Fin 16).val + 1 ∧
    State.reset.sp.toNat = 0 :=
    by decide
theorem witness_RetReturnsAfterTheCall : ∃ t, exec (.call 0x204) { State.reset with sp := 15 } = .next t ∧ t.sp = 16 :=
    ⟨_, rfl, by decide +kernel⟩
theorem witness_SkipsAdvancePcOnTheirCondition : (digit 15).reg 0 = 15 ∧ (digit 15).reg 1 ≠ 15 ∧ (digit 15).reg 1 = (digit 15).reg 2 ∧ (digit 15).reg 0 ≠ (digit 15).reg 1 :=
    by decide +kernel
theorem witness_ExitHaltsForGood : ∃ t u, exec .exit { State.reset with schedule := [.tick, .step] } = .next t ∧ After 1 t u ∧
    Issues u .step { u with schedule := [] } :=
    ⟨_, _, rfl, ⟨_, rfl, rfl⟩, rfl, .inl ⟨[], rfl, rfl⟩⟩
theorem witness_LoadAddrDigitPointsAtTheGlyph : ((digit 15).reg 0).toNat ≤ 15 ∧ 15 < ((digit 16).reg 0).toNat ∧ (digit 16).onFault = .stop :=
    by decide +kernel
theorem witness_LoadAddrBigDigitAlwaysFails : State.reset.onFault = .stop ∧ going.onFault = .goOn :=
    ⟨rfl, rfl⟩
theorem witness_AddRegSumsAndCarries : ((regs [(0, 0xFF), (1, 1)]).reg 0).toNat + ((regs [(0, 0xFF), (1, 1)]).reg 1).toNat = 256 ∧
    ((regs [(0, 0xFE), (1, 1)]).reg 0).toNat + ((regs [(0, 0xFE), (1, 1)]).reg 1).toNat = 255 ∧ (0 : RegIndex) ≠ 15 :=
    by decide +kernel
theorem witness_SubtractionsBorrowStrictly : ((digit 15).reg 1).toNat < ((digit 15).reg 0).toNat ∧ ((digit 15).reg 1).toNat ≤ ((digit 15).reg 2).toNat :=
    by decide +kernel
theorem witness_ShiftsMoveOnePlace : (14 : RegIndex) ≠ 15 ∧ (15 : RegIndex) = 15 := by decide
theorem witness_RandModImmStaysWithinImm : ∃ t, exec (.randModImm 0 0) .reset = .next t := ⟨_, rfl⟩

theorem witness_ClsClearsTheWindowOnly : (31 : Fin 64).val < eh .reset ∧ (63 : Fin 128).val < ew .reset ∧ eh .reset ≤ (32 : Fin 64).val ∧ ew .reset ≤ (64 : Fin 128).val :=
    by decide
/-- W6. -/
theorem witness_DrawXorsTheSmallSprite : (15 : Nibble).toNat ≠ 0 ∧ (index 0xFF0 .reset).i.toNat + (15 : Nibble).toNat < 4096 :=
    by decide
/-- W8. -/
theorem witness_DrawXorsTheLargeSprite : (index 0xFDF .reset).i.toNat + 32 < 4096 := by decide

/-- A pixel at the last cell of the low-resolution window, for the clauses of `DrawnWith` and `SmallCovers`. -/
theorem witness_DrawXorsTheSmallSprite_covers : SmallCovers .reset 63 31 [0x80] 31 63 := ⟨0, 0, by decide⟩
theorem witness_DrawXorsTheLargeSprite_covers :
    LargeCovers .reset 0 0 (List.replicate 31 0 ++ [0x01]) 15 15 := ⟨15, 15, by decide⟩
theorem witness_DrawTwiceRestoresThePicture : ∃ t, State.reset.onFault = .stop ∧ exec (.draw 0 1 5) .reset = .next t ∧ (t.reg 15).toNat = 0 :=
    ⟨_, rfl, rfl, by decide +kernel⟩
theorem witness_ScdMovesEveryRowDown : (14 : Fin 64).val < (15 : Nibble).toNat ∧ (63 : Fin 64).val = (48 : Fin 64).val + (15 : Nibble).toNat :=
    by decide
theorem witness_HorizontalScrollsMoveFourColumns : (3 : Fin 128).val < 4 ∧ 124 ≤ (124 : Fin 128).val ∧ (127 : Fin 128).val = (123 : Fin 128).val + 4 :=
    by decide
theorem witness_KeySkipsTestTheLatch : ((digit 15).reg 0).toNat = (15 : Fin 16).val ∧ (digit 15).key[(15 : Fin 16).val] = false ∧ 15 < ((digit 16).reg 0).toNat :=
    by decide +kernel
theorem witness_KeySkipsTestTheLatch_pressed : ({ digit 15 with key := (digit 15).key.set 15 true } : State).key[(15 : Fin 16).val] = true :=
    by decide +kernel
theorem witness_WaitKeyTakesTheProvidersAnswer : State.reset.waiting = none ∧ State.reset.keyAnswers = [] ∧
    ({ State.reset with keyAnswers := [.code 15] } : State).keyAnswers = .code 15 :: [] ∧
    ({ going with keyAnswers := [.failure "closed"] } : State).keyAnswers = .failure "closed" :: [] :=
    ⟨rfl, rfl, rfl, rfl⟩

/-- M1. -/
theorem witness_MemStoreBcdStoresThreeDigits : (index 0xFFC .reset).mem.wf = true ∧ (index 0xFFC .reset).i.toNat + 3 < 4096 :=
    ⟨rfl, by decide⟩
/-- M4. -/
theorem witness_MemStoreRegsStoresThroughVx : (index 0xFEF .reset).mem.wf = true ∧ (index 0xFEF .reset).i.toNat + (15 : RegIndex).val + 1 < 4096 :=
    ⟨rfl, by decide⟩
/-- M6. -/
theorem witness_MemLoadRegsLoadsThroughVx : (index 0xFFE .reset).i.toNat + (0 : RegIndex).val + 1 < 4096 :=
    by decide
/-- M2, M5, W7, W8. -/
theorem witness_BlocksPastTheBoundFail : 4096 ≤ (index 0xFFD .reset).i.toNat + 3 ∧ 4096 ≤ (index 0xFF0 .reset).i.toNat + (15 : RegIndex).val + 1 ∧
    4096 ≤ (index 0xFF1 .reset).i.toNat + (15 : Nibble).toNat ∧ (15 : Nibble).toNat ≠ 0 ∧ (0 : Nibble).toNat = 0 ∧
    4096 ≤ (index 0xFE0 .reset).i.toNat + 32 :=
    by decide
theorem witness_StoredRegistersLoadBack : ∃ t, (index 0xFEF .reset).mem.wf = true ∧ exec (.memStoreRegs 15) (index 0xFEF .reset) = .next t :=
    ⟨_, rfl, rfl⟩
theorem witness_RplPairMovesXRegisters : (8 : RegIndex).val ≤ 8 ∧ 8 < (9 : RegIndex).val := by decide
theorem witness_RplRoundTripRestoresRegisters : ∃ t, (8 : RegIndex).val ≤ 8 ∧ exec (.rplStoreRegs 8) .reset = .next t :=
    ⟨_, by decide, rfl⟩

/-! For each clause of `OnlyListedInstructionsWriteEachState`, an instruction that does change the piece of state. -/

theorem witness_OnlyListedInstructionsWriteEachState_v : gives (.draw 0 1 1) (regs [(15, 9)]) (fun t => t.reg 15 != 9) = true :=
    by decide +kernel
theorem witness_OnlyListedInstructionsWriteEachState_waiting : gives (.waitKey 0) .reset (fun t => t.waiting != none) = true :=
    by decide +kernel
theorem witness_OnlyListedInstructionsWriteEachState_i : gives (.loadAddr 1) .reset (fun t => t.i != 0) = true :=
    by decide +kernel
theorem witness_OnlyListedInstructionsWriteEachState_sp : gives .ret inCall (fun t => t.sp != inCall.sp) = true :=
    by decide +kernel
theorem witness_OnlyListedInstructionsWriteEachState_stack : gives (.call 0) .reset (fun t => t.stack != State.reset.stack) = true :=
    by decide +kernel
theorem witness_OnlyListedInstructionsWriteEachState_rpl : gives (.rplStoreRegs 1) (digit 15) (fun t => t.rpl != State.reset.rpl) = true :=
    by decide +kernel
theorem witness_OnlyListedInstructionsWriteEachState_dt : gives (.loadDelayReg 0) (digit 15) (fun t => t.dt != 0) = true :=
    by decide +kernel
theorem witness_OnlyListedInstructionsWriteEachState_st : gives (.loadSoundReg 0) (digit 15) (fun t => t.st != 0) = true :=
    by decide +kernel
theorem witness_OnlyListedInstructionsWriteEachState_fb : gives (.draw 0 1 1) .reset (fun t => t.fb != State.reset.fb) = true :=
    by decide +kernel
theorem witness_OnlyListedInstructionsWriteEachState_hires : gives .high .reset (fun t => t.hires) = true :=
    by decide +kernel
theorem witness_OnlyListedInstructionsWriteEachState_power : gives .exit .reset (fun t => t.power != .running) = true :=
    by decide +kernel
theorem witness_OnlyListedInstructionsWriteEachState_mem : gives (.memStoreBcd 0) (index 0x300 (digit 15)) (fun t => t.mem != []) = true :=
    by decide +kernel
theorem witness_OnlyListedInstructionsWriteEachState_pc : gives (.jump 0) .reset (fun t => t.pc != 0x200) = true :=
    by decide +kernel

/-! For each clause of `OnlyElevenOperationsFail`, and for `FailedInstructionLeavesTheCoreUnchanged`, an instruction
that does fail so. -/

theorem witness_OnlyElevenOperationsFail : ({ State.reset with sp := 16 } : State).sp.toNat ≤ 16 ∧ stops (.call 0) { State.reset with sp := 16 } .stackOverflow = true ∧
    stops .ret .reset .stackUnderflow = true ∧ stops (.loadAddrDigit 0) (digit 16) .invalidDigitSprite = true ∧
    stops (.loadAddrBigDigit 0) .reset .invalidOpcode = true ∧
    stops (.draw 0 0 0) (index 0xFE0 .reset) .addressOutOfRange = true ∧
    stops (.waitKey 0) { State.reset with keyAnswers := [.failure ""] } (.unknown "") = true ∧
    stops (.rplLoadRegs 9) .reset (.registerOutOfRange 9) = true ∧ stops (.skipKey 0) (digit 16) .unspecified = true :=
    by decide +kernel
theorem witness_FailedInstructionLeavesTheCoreUnchanged : State.reset.waiting = none ∧ State.reset.onFault = .stop ∧ Fault.stackUnderflow ≠ .unspecified ∧
    exec .ret .reset = .fault .stackUnderflow :=
    ⟨rfl, rfl, by decide, rfl⟩

end Sys2Proof.Tests
end

section
/-! The loads and moves (41_load_move.md): the word `op x i i` written by arithmetic is the one the encoder forms, a
register write changes that register alone, and what follows for `LoadImm` (R120). -/

namespace Sys2Proof.Proofs

open Sys2Proof Sys2Proof.Machine Sys2Proof.Claims

/-! ## The word `op x i i` (R72, R84) -/

/-- The two spellings of a word in format `XIMM` agree: its fields set side by side, and their weighted sum. -/
theorem wordXImm_eq_formXImm (op : Nibble) (x : RegIndex) (imm : Byte) :
    wordXImm op.toNat x imm = formXImm op x imm := by
  have hlow := imm.isLt
  have hx := (regBits x).isLt
  have hop := op.isLt
  have hhigh : (op ++ regBits x).toNat = op.toNat * 16 + x.val := by
    rw [BitVec.toNat_append, ← Nat.shiftLeft_add_eq_or_of_lt hx, Nat.shiftLeft_eq, regBits_toNat]
  apply BitVec.eq_of_toNat_eq
  rw [formXImm, BitVec.toNat_append, ← Nat.shiftLeft_add_eq_or_of_lt hlow, Nat.shiftLeft_eq, hhigh, wordXImm,
    BitVec.toNat_ofNat]
  rw [regBits_toNat] at hx
  omega

/-- Family 6 is `LoadImm`, whatever the other twelve bits (R76, R82). -/
theorem decode_of_opField_eq_six {w : Word16} (h : opField w = 0x6) :
    decode w = some (.loadImm (xField w) (immField w)) := by
  simp [decode, decodeWord, h]

/-- The word `6xii` decodes to `LoadImm(x, imm)` (R84, R120). -/
theorem decode_wordXImm_six (x : RegIndex) (imm : Byte) : decode (wordXImm 0x6 x imm) = some (.loadImm x imm) := by
  have hword : wordXImm 0x6 x imm = formXImm 0x6 x imm := wordXImm_eq_formXImm 0x6 x imm
  rw [hword, decode_of_opField_eq_six (opField_formXImm 0x6 x imm), xField_formXImm, immField_formXImm]

/-! ## The effect -/

/-- The meaning of `LoadImm` is one register write (R120). -/
theorem exec_loadImm (x : RegIndex) (imm : Byte) (s : State) :
    exec (.loadImm x imm) s = .next (s.setReg x imm) := rfl

/-- The frame of a register write: that register alone, and no other piece of state (R10). -/
theorem onlyRegs_setReg (s : State) (x : RegIndex) (b : Byte) : OnlyRegs (fun r => r = x) s (s.setReg x b) := by
  refine ⟨State.setReg_eq s x b, fun r hr => ?other, fun a => ?memory⟩
  case other => exact State.reg_setReg_ne s b hr
  case memory => rw [State.setReg_mem]

/-- Settles O29: the word by its fields, the effect by the rule of a register write. -/
theorem loadImmAssigns : Obligations.LoadImmAssigns := by
  unfold Obligations.LoadImmAssigns
  intro x imm
  refine ⟨decode_wordXImm_six x imm, fun s => ?_⟩
  exact ⟨s.setReg x imm, exec_loadImm x imm s, State.reg_setReg_self s x imm, onlyRegs_setReg s x imm⟩

end Sys2Proof.Proofs
end

section
/-! The display (43_display.md): the claims' window is the model's, an instruction that assigns the framebuffer changes
nothing else, and what follows for `Cls` (R160, R168). -/

namespace Sys2Proof.Proofs

open Sys2Proof Sys2Proof.Machine Sys2Proof.Claims

/-! ## The effective window (R24) -/

/-- The claims' width is the one the display primitives use. -/
theorem ew_eq_effWidth (s : State) : ew s = effWidth s.hires := rfl

/-- The claims' height is the one the display primitives use. -/
theorem eh_eq_effHeight (s : State) : eh s = effHeight s.hires := rfl

/-- `clear()` leaves no lit cell in the effective window (R160). -/
theorem cell_clear_inside {s : State} {row : Fin 64} {col : Fin 128} (hrow : row.val < eh s) (hcol : col.val < ew s) :
    (s.fb.clear s.hires).cell row col = false := by
  rw [eh_eq_effHeight] at hrow
  rw [ew_eq_effWidth] at hcol
  rw [Framebuffer.cell_clear, if_pos ⟨hrow, hcol⟩]

/-- `clear()` keeps every hidden cell, below the window or to its right (R160). -/
theorem cell_clear_outside {s : State} {row : Fin 64} {col : Fin 128} (h : eh s ≤ row.val ∨ ew s ≤ col.val) :
    (s.fb.clear s.hires).cell row col = s.fb.cell row col := by
  rw [eh_eq_effHeight, ew_eq_effWidth] at h
  have hidden : ¬ (row.val < effHeight s.hires ∧ col.val < effWidth s.hires) := by omega
  rw [Framebuffer.cell_clear, if_neg hidden]

/-! ## The effect -/

/-- The frame of an assignment to the framebuffer: no other field, no register and no byte of memory. -/
theorem onlyDisplay_set_fb (s : State) (fb : Framebuffer) : OnlyDisplay s { s with fb := fb } :=
  ⟨rfl, fun _ => rfl, fun _ => rfl⟩

/-- The meaning of `Cls` is `clear()` in the present display mode (R168). -/
theorem exec_cls (s : State) : exec .cls s = .next { s with fb := s.fb.clear s.hires } := rfl

/-- The word `0x00E0` decodes to `Cls` (R75). -/
theorem decode_cls_word : decode 0x00E0 = some .cls := by decide

/-- Settles O41: the effect is `clear()`, taken cell by cell inside the window and outside it. -/
theorem clsClearsTheWindowOnly : Obligations.ClsClearsTheWindowOnly := by
  unfold Obligations.ClsClearsTheWindowOnly
  refine ⟨decode_cls_word, fun s => ⟨{ s with fb := s.fb.clear s.hires }, exec_cls s, ?inside, ?outside, ?frame⟩⟩
  case inside => exact fun _ _ hrow hcol => cell_clear_inside hrow hcol
  case outside => exact fun _ _ hidden => cell_clear_outside hidden
  case frame => exact onlyDisplay_set_fb s _

end Sys2Proof.Proofs
end

section
/-! Words and instructions (30_encoding.md): the fields of a word as numbers, every word put together from its fields,
the rows of the opcode table as tests of fields, and what follows for the decoder and the encoder (R71–R84). -/

namespace Sys2Proof.Proofs

open Sys2Proof Sys2Proof.Machine Sys2Proof.Claims Sys2Proof.Laws

/-! ## The fields as numbers (R71) -/

theorem opField_toNat (w : Word16) : (opField w).toNat = w.toNat / 4096 := by
  have := w.isLt
  simp only [opField, BitVec.extractLsb'_toNat, Nat.shiftRight_eq_div_pow]
  omega

theorem xField_val (w : Word16) : (xField w).val = w.toNat / 256 % 16 := by
  simp [xField, Nat.shiftRight_eq_div_pow]

theorem yField_val (w : Word16) : (yField w).val = w.toNat / 16 % 16 := by
  simp [yField, Nat.shiftRight_eq_div_pow]

theorem nibField_toNat (w : Word16) : (nibField w).toNat = w.toNat % 16 := by
  simp [nibField]

theorem immField_toNat (w : Word16) : (immField w).toNat = w.toNat % 256 := by
  simp [immField]

theorem addrField_toNat (w : Word16) : (addrField w).toNat = w.toNat % 4096 := by
  simp [addrField]

/-! ## The forms as numbers (R72) -/

/-- Bits side by side are a weighted sum. -/
theorem append_toNat {n m : Nat} (a : BitVec n) (b : BitVec m) : (a ++ b).toNat = a.toNat * 2 ^ m + b.toNat := by
  rw [BitVec.toNat_append, ← Nat.shiftLeft_add_eq_or_of_lt b.isLt, Nat.shiftLeft_eq]

theorem formAddr_toNat (op : Nibble) (addr : Addr12) : (formAddr op addr).toNat = op.toNat * 4096 + addr.toNat :=
  append_toNat op addr

theorem formXImm_toNat (op : Nibble) (x : RegIndex) (imm : Byte) :
    (formXImm op x imm).toNat = op.toNat * 4096 + x.val * 256 + imm.toNat := by
  simp only [formXImm, append_toNat, regBits_toNat]
  omega

theorem formXYN_toNat (op : Nibble) (x y : RegIndex) (nib : Nibble) :
    (formXYN op x y nib).toNat = op.toNat * 4096 + x.val * 256 + y.val * 16 + nib.toNat := by
  simp only [formXYN, append_toNat, regBits_toNat]
  omega

/-! ## Every word is put together from its fields -/

theorem formAddr_fields (w : Word16) : formAddr (opField w) (addrField w) = w := by
  apply BitVec.eq_of_toNat_eq
  rw [formAddr_toNat, opField_toNat, addrField_toNat]
  omega

theorem formXImm_fields (w : Word16) : formXImm (opField w) (xField w) (immField w) = w := by
  apply BitVec.eq_of_toNat_eq
  rw [formXImm_toNat, opField_toNat, xField_val, immField_toNat]
  omega

theorem formXYN_fields (w : Word16) : formXYN (opField w) (xField w) (yField w) (nibField w) = w := by
  apply BitVec.eq_of_toNat_eq
  rw [formXYN_toNat, opField_toNat, xField_val, yField_val, nibField_toNat]
  omega

/-! ## Family 0 (R75) -/

/-- The upper twelve bits of a word are `00C` iff it is one of `00C0` to `00CF`. -/
theorem isScd_iff (w : Word16) : w &&& 0xFFF0 = 0x00C0 ↔ w.toNat / 16 = 0x0C := by
  have hmask : (0xFFF0 : Word16) = BitVec.allOnes 12 ++ (0 : BitVec 4) := by decide
  have hword : w = (w.extractLsb' 4 12 ++ w.extractLsb' 0 4 : Word16) := by
    apply BitVec.eq_of_toNat_eq
    rw [append_toNat, BitVec.extractLsb'_toNat, BitVec.extractLsb'_toNat, Nat.shiftRight_eq_div_pow]
    omega
  have hmasked : w &&& 0xFFF0 = (w.extractLsb' 4 12 ++ (0 : BitVec 4) : Word16) := by
    conv_lhs => rw [hword, hmask, BitVec.and_append, BitVec.and_allOnes]
    rw [and_zero4]
  have hw := w.isLt
  have hshown : (w.extractLsb' 4 12 ++ (0 : BitVec 4) : Word16).toNat = w.toNat / 16 * 16 := by
    rw [append_toNat, BitVec.extractLsb'_toNat, Nat.shiftRight_eq_div_pow]
    simp
    omega
  rw [hmasked, ← BitVec.toNat_inj, hshown, show (0x00C0 : Word16).toNat = 0x0C * 16 from rfl]
  omega

/-- A word whose low twelve bits are no special form of family 0 is `Sys` (R75, R84). -/
theorem decodeFamily0_sys {addr : Addr12} (h : isSpecialAddr addr = false) :
    decodeFamily0 (formAddr 0x0 addr) = .sys addr := by
  have hword : (formAddr 0x0 addr).toNat = addr.toNat := by simp [formAddr_toNat]
  simp only [isSpecialAddr, Bool.or_eq_false_iff, beq_eq_false_iff_ne, Bool.and_eq_false_iff,
    decide_eq_false_iff_not] at h
  obtain ⟨⟨⟨hscd, hcls⟩, hret⟩, hlast⟩ := h
  have hne : ∀ p : Word16, addr.toNat ≠ p.toNat → formAddr 0x0 addr ≠ p := fun p hp e =>
    hp (by rw [← e, hword])
  unfold decodeFamily0
  rw [if_neg (by rw [isScd_iff, hword]; exact hscd), if_neg (hne 0x0E0 hcls), if_neg (hne 0x0EE hret),
    if_neg (hne 0x0FB (by simp; omega)), if_neg (hne 0x0FC (by simp; omega)), if_neg (hne 0x0FD (by simp; omega)),
    if_neg (hne 0x0FE (by simp; omega)), if_neg (hne 0x0FF (by simp; omega)), addrField_formAddr]

theorem decodeWord_family0 {w : Word16} (h : opField w = 0x0) : decodeWord w = .ok (decodeFamily0 w) := by
  simp [decodeWord, h]

/-! ## Decoding an encoded instruction (R84) -/

theorem decode_eq_toOption (w : Word16) : decode w = (decodeWord w).toOption := by
  unfold decode
  cases decodeWord w <;> rfl

theorem decode_eq_some_iff {w : Word16} {i : Instr} : decode w = some i ↔ decodeWord w = .ok i := by
  rw [decode_eq_toOption]
  cases decodeWord w <;> simp [Except.toOption]

/-- The word of a well-formed instruction decodes to it. Outside family 0 the fields of the word choose the branch and
give the operands; in family 0 the sixteen `Scd` are enumerated and `Sys` is no special form. -/
theorem decodeWord_encode {i : Instr} (h : i.WellFormed) : decodeWord (encode i) = .ok i := by
  cases i with
  | scd nib => revert nib; decide
  | sys addr =>
    have hsys : isSpecialAddr addr = false := by simpa [Instr.WellFormed, Instr.wellFormed] using h
    rw [encode, decodeWord_family0 (opField_formAddr 0x0 addr), decodeFamily0_sys hsys]
  | cls | ret | scr | scl | exit | low | high => decide
  | _ => simp [decodeWord, encode, decodeFamily8, decodeFamilyE, decodeFamilyF]

theorem decode_encode {i : Instr} (h : i.WellFormed) : decode (encode i) = some i :=
  decode_eq_some_iff.2 (decodeWord_encode h)

/-- Settles O1: the two bytes of a word, joined, are the word again. -/
theorem decodeInvertsEncode : Obligations.DecodeInvertsEncode := by
  unfold Obligations.DecodeInvertsEncode
  refine fun i h => ⟨decode_encode h, fun rest => ?_⟩
  simp only [encodeBytes, List.cons_append, List.nil_append, decodeBytes, joinBytes_bytes, decodeWord_encode h]

/-! ## Encoding a decoded instruction (R84) -/

/-- What family 0 gives is well-formed and its encoding is the word. -/
theorem encode_decodeFamily0 {w : Word16} (hop : opField w = 0x0) :
    (decodeFamily0 w).WellFormed ∧ encode (decodeFamily0 w) = w := by
  have hsmall : w.toNat / 4096 = 0 := by rw [← opField_toNat, hop]; rfl
  unfold decodeFamily0
  split
  next hscd =>
    rw [isScd_iff] at hscd
    refine ⟨rfl, BitVec.eq_of_toNat_eq ?_⟩
    rw [encode, append_toNat, nibField_toNat]
    simp
    omega
  next hscd =>
    rw [isScd_iff] at hscd
    split_ifs with hcls hret hscr hscl hexit hlow hhigh
    case neg =>
      have hne : ∀ p : Word16, w ≠ p → (addrField w).toNat ≠ p.toNat := fun p hp e =>
        hp (BitVec.eq_of_toNat_eq (by rw [← e, addrField_toNat]; omega))
      refine ⟨?_, by rw [encode, ← hop, formAddr_fields]⟩
      have hsys : isSpecialAddr (addrField w) = false := by
        have := hne _ hcls
        have := hne _ hret
        have := hne _ hscr
        have := hne _ hscl
        have := hne _ hexit
        have := hne _ hlow
        have := hne _ hhigh
        have : (addrField w).toNat / 16 ≠ 0x0C := by rw [addrField_toNat]; omega
        simp [isSpecialAddr] at *
        omega
      simp [Instr.WellFormed, Instr.wellFormed, hsys]
    all_goals exact ⟨rfl, Eq.symm ‹_›⟩

/-- The shifts are the only instructions with an ignored field (R77). -/
def IsShift (i : Instr) : Prop := ∃ x, i = .shr x ∨ i = .shl x

/-- The word is the encoding of the instruction, up to the `y` field that a shift ignores. -/
def EncodesBack (i : Instr) (w : Word16) : Prop :=
  i.WellFormed ∧ (¬ IsShift i → encode i = w) ∧ (IsShift i → encode i = w &&& 0xFF0F)

theorem encodesBack_of_encode {i : Instr} {w : Word16} (hi : i.WellFormed) (hs : ¬ IsShift i) (he : encode i = w) :
    EncodesBack i w :=
  ⟨hi, fun _ => he, fun h => absurd h hs⟩

theorem encodesBack_addr {w : Word16} {i : Instr} {op : Nibble}
    (he : encode i = formAddr op (addrField w)) (hop : (opField w).toNat = op.toNat)
    (hi : i.WellFormed) (hs : ¬ IsShift i) : EncodesBack i w := by
  refine encodesBack_of_encode hi hs ?_
  rw [he, ← BitVec.eq_of_toNat_eq hop, formAddr_fields]

theorem encodesBack_xImm {w : Word16} {i : Instr} {op : Nibble} {imm : Byte}
    (he : encode i = formXImm op (xField w) imm) (hop : (opField w).toNat = op.toNat)
    (himm : (immField w).toNat = imm.toNat) (hi : i.WellFormed) (hs : ¬ IsShift i) : EncodesBack i w := by
  refine encodesBack_of_encode hi hs ?_
  rw [he, ← BitVec.eq_of_toNat_eq hop, ← BitVec.eq_of_toNat_eq himm, formXImm_fields]

theorem encodesBack_xyn {w : Word16} {i : Instr} {op nib : Nibble}
    (he : encode i = formXYN op (xField w) (yField w) nib) (hop : (opField w).toNat = op.toNat)
    (hnib : (nibField w).toNat = nib.toNat) (hi : i.WellFormed) (hs : ¬ IsShift i) : EncodesBack i w := by
  refine encodesBack_of_encode hi hs ?_
  rw [he, ← BitVec.eq_of_toNat_eq hop, ← BitVec.eq_of_toNat_eq hnib, formXYN_fields]

/-- Bits 7–4 cleared: the `y` field is 0 and the other three are kept. -/
theorem formXYN_and_clearY (op : Nibble) (x y : RegIndex) (nib : Nibble) :
    formXYN op x y nib &&& 0xFF0F = formXYN op x 0 nib := by
  have hmask : (0xFF0F : Word16) =
      ((BitVec.allOnes 4 ++ BitVec.allOnes 4) ++ (0 : BitVec 4)) ++ BitVec.allOnes 4 := by decide
  unfold formXYN
  rw [hmask, BitVec.and_append, BitVec.and_append, BitVec.and_append, BitVec.and_allOnes, BitVec.and_allOnes,
    BitVec.and_allOnes, and_zero4]
  rfl

theorem encodesBack_shift {w : Word16} {i : Instr} {op nib : Nibble}
    (he : encode i = formXYN op (xField w) 0 nib) (hop : (opField w).toNat = op.toNat)
    (hnib : (nibField w).toNat = nib.toNat) (hi : i.WellFormed) (hs : IsShift i) : EncodesBack i w := by
  refine ⟨hi, fun h => absurd hs h, fun _ => ?_⟩
  rw [he, ← BitVec.eq_of_toNat_eq hop, ← BitVec.eq_of_toNat_eq hnib, ← formXYN_and_clearY _ _ (yField w),
    formXYN_fields]

theorem encodesBack_family8 {w : Word16} {i : Instr} (hop : (opField w).toNat = 0x8) (h : decodeFamily8 w = .ok i) :
    EncodesBack i w := by
  unfold decodeFamily8 at h
  split at h <;> cases h
  case h_7 hnib => exact encodesBack_shift rfl hop hnib rfl ⟨_, .inl rfl⟩
  case h_9 hnib => exact encodesBack_shift rfl hop hnib rfl ⟨_, .inr rfl⟩
  all_goals exact encodesBack_xyn rfl hop ‹_› rfl (by simp [IsShift])

theorem encodesBack_familyE {w : Word16} {i : Instr} (hop : (opField w).toNat = 0xE) (h : decodeFamilyE w = .ok i) :
    EncodesBack i w := by
  unfold decodeFamilyE at h
  split at h <;> cases h
  all_goals exact encodesBack_xImm rfl hop ‹_› rfl (by simp [IsShift])

theorem encodesBack_familyF {w : Word16} {i : Instr} (hop : (opField w).toNat = 0xF) (h : decodeFamilyF w = .ok i) :
    EncodesBack i w := by
  unfold decodeFamilyF at h
  split at h <;> cases h
  all_goals exact encodesBack_xImm rfl hop ‹_› rfl (by simp [IsShift])

/-- The shifts come from family 8 alone. -/
theorem decodeFamily0_not_shift (w : Word16) : ¬ IsShift (decodeFamily0 w) := by
  unfold decodeFamily0
  split_ifs <;> simp [IsShift]

/-- Family by family, a word that decodes is put together again from the fields its instruction took (R75–R79). -/
theorem encodesBack_of_decodeWord {w : Word16} {i : Instr} (h : decodeWord w = .ok i) : EncodesBack i w := by
  unfold decodeWord at h
  split at h
  case h_1 hop =>
    cases h
    obtain ⟨hi, he⟩ := encode_decodeFamily0 (w := w) (BitVec.eq_of_toNat_eq hop)
    exact encodesBack_of_encode hi (decodeFamily0_not_shift w) he
  case h_2 hop | h_3 hop | h_11 hop | h_12 hop =>
    cases h
    exact encodesBack_addr rfl hop rfl (by simp [IsShift])
  case h_4 hop | h_5 hop | h_7 hop | h_8 hop | h_13 hop =>
    cases h
    exact encodesBack_xImm rfl hop rfl rfl (by simp [IsShift])
  case h_6 hop | h_10 hop =>
    split at h <;> cases h
    next hnib => exact encodesBack_xyn rfl hop (congrArg BitVec.toNat hnib) rfl (by simp [IsShift])
  case h_9 hop => exact encodesBack_family8 hop h
  case h_14 hop =>
    cases h
    exact encodesBack_xyn rfl hop rfl rfl (by simp [IsShift])
  case h_15 hop => exact encodesBack_familyE hop h
  case h_16 =>
    have hlt := (opField w).isLt
    simp only [imp_false] at *
    exact encodesBack_familyF (by omega) h

/-- Settles O2: the fields give the word back, in a shift with its `y` field cleared. -/
theorem encodeInvertsDecode : Obligations.EncodeInvertsDecode := by
  unfold Obligations.EncodeInvertsDecode
  intro w i h
  obtain ⟨hi, hplain, hshift⟩ := encodesBack_of_decodeWord (decode_eq_some_iff.1 h)
  refine ⟨hi, fun hne => hplain ?_, hshift⟩
  rintro ⟨x, rfl | rfl⟩
  · exact (hne x).1 rfl
  · exact (hne x).2 rfl

/-! ## The opcode table (R74) -/

/-- A row that fixes the family alone. -/
theorem covers_family {m : String} {p w : Word16} (hp : p &&& 0xF000#16 = p) :
    (OpcodeRow.mk m p 0xF000#16).covers w = decide (w.toNat / 4096 = p.toNat / 4096) := by
  have hmask : ∀ v : Word16, v &&& 0xF000#16 = opField v ++ (0 : BitVec 12) := fun v => by
    have hv := covers_formXYN_any m (opField v) (xField v) (yField v) (nibField v)
    rwa [formXYN_fields, OpcodeRow.covers, beq_iff_eq] at hv
  rw [OpcodeRow.covers, Bool.eq_iff_iff, beq_iff_eq, decide_eq_true_eq, ← opField_toNat, ← opField_toNat,
    BitVec.toNat_inj]
  simp only [hmask w]
  constructor
  · exact fun e => (opField_formAddr (opField w) 0).symm.trans (congrArg opField e)
  · exact fun e => by rw [e, ← hmask p, hp]

/-- A row that fixes the family and the low nibble. -/
theorem covers_lowNibble {m : String} {p w : Word16} (hp : p &&& 0xF00F#16 = p) :
    (OpcodeRow.mk m p 0xF00F#16).covers w =
      decide (w.toNat / 4096 = p.toNat / 4096 ∧ w.toNat % 16 = p.toNat % 16) := by
  have hmask : ∀ v : Word16, v &&& 0xF00F#16 = formXYN (opField v) 0 0 (nibField v) := fun v => by
    have hv := covers_formXYN m (opField v) (xField v) (yField v) (nibField v)
    rwa [formXYN_fields, OpcodeRow.covers, beq_iff_eq] at hv
  rw [OpcodeRow.covers, Bool.eq_iff_iff, beq_iff_eq, decide_eq_true_eq, ← opField_toNat, ← opField_toNat,
    BitVec.toNat_inj, ← nibField_toNat, ← nibField_toNat, BitVec.toNat_inj]
  simp only [hmask w]
  constructor
  · exact fun e => ⟨by rw [← e, opField_formXYN], by rw [← e, nibField_formXYN]⟩
  · rintro ⟨hop, hnib⟩
    rw [hop, hnib, ← hmask p, hp]

/-- A row that fixes the family and the low byte. -/
theorem covers_lowByte {m : String} {p w : Word16} (hp : p &&& 0xF0FF#16 = p) :
    (OpcodeRow.mk m p 0xF0FF#16).covers w =
      decide (w.toNat / 4096 = p.toNat / 4096 ∧ w.toNat % 256 = p.toNat % 256) := by
  have hmask : ∀ v : Word16, v &&& 0xF0FF#16 = formXImm (opField v) 0 (immField v) := fun v => by
    have hv := covers_formXImm m (opField v) (xField v) (immField v)
    rwa [formXImm_fields, OpcodeRow.covers, beq_iff_eq] at hv
  rw [OpcodeRow.covers, Bool.eq_iff_iff, beq_iff_eq, decide_eq_true_eq, ← opField_toNat, ← opField_toNat,
    BitVec.toNat_inj, ← immField_toNat, ← immField_toNat, BitVec.toNat_inj]
  simp only [hmask w]
  constructor
  · exact fun e => ⟨by rw [← e, opField_formXImm], by rw [← e, immField_formXImm]⟩
  · rintro ⟨hop, himm⟩
    rw [hop, himm, ← hmask p, hp]

/-- A row that fixes the whole word. -/
theorem covers_word {m : String} {p w : Word16} :
    (OpcodeRow.mk m p 0xFFFF#16).covers w = decide (w.toNat = p.toNat) := by
  have hmask : w &&& 0xFFFF#16 = w := BitVec.and_allOnes
  rw [OpcodeRow.covers, Bool.eq_iff_iff, beq_iff_eq, decide_eq_true_eq, BitVec.toNat_inj]
  simp only [hmask]

/-- The row of `Scd` (R75). -/
theorem covers_scd {m : String} {w : Word16} :
    (OpcodeRow.mk m 0x00C0#16 0xFFF0#16).covers w = decide (w.toNat / 16 = 0x0C) := by
  rw [OpcodeRow.covers, Bool.eq_iff_iff, beq_iff_eq, decide_eq_true_eq]
  exact isScd_iff w

/-- The name of the first of the rows that covers the word. -/
def firstName : List OpcodeRow → Word16 → Option String
  | [], _ => none
  | r :: rows, w => if r.covers w = true then some r.mnemonic else firstName rows w

theorem firstName_eq_find (rows : List OpcodeRow) (w : Word16) :
    firstName rows w = (rows.find? (fun r => r.covers w)).map (fun r => r.mnemonic) := by
  induction rows with
  | nil => rfl
  | cons r rows ih => cases h : r.covers w <;> simp [firstName, h, ih]

theorem tableMnemonic_eq (w : Word16) :
    tableMnemonic w = (firstName opcodeRows0 w).or ((firstName opcodeRows1 w).or (firstName opcodeRowsEF w)) := by
  simp only [tableMnemonic, opcodeTable, List.find?_append, Option.map_or, firstName_eq_find]

theorem firstName_rows0_of_family_pos {w : Word16} (h : 0 < w.toNat / 4096) : firstName opcodeRows0 w = none := by
  have hbig : 4096 ≤ w.toNat := by omega
  have hscd : w.toNat / 16 ≠ 0x0C := by omega
  have hword : ∀ n < 4096, w.toNat ≠ n := by omega
  simp [opcodeRows0, firstName, covers_scd, covers_word, covers_family, hscd, hword, hbig]

theorem firstName_rows1_of_family_ge {w : Word16} (h : 0xE ≤ w.toNat / 4096) : firstName opcodeRows1 w = none := by
  have hop : ∀ n < 0xE, w.toNat / 4096 ≠ n := by omega
  simp [opcodeRows1, firstName, covers_family, covers_lowNibble, hop]

theorem firstName_rowsEF_of_family_lt {w : Word16} (h : w.toNat / 4096 < 0xE) : firstName opcodeRowsEF w = none := by
  have hop : ∀ n, 0xE ≤ n → w.toNat / 4096 ≠ n := by omega
  simp [opcodeRowsEF, firstName, covers_lowByte, hop]

/-! ## The decoder by the number of the family -/

theorem decode_family0 {w : Word16} (h : w.toNat / 4096 = 0x0) : decode w = some (decodeFamily0 w) :=
  decode_eq_some_iff.2 (decodeWord_family0 (BitVec.eq_of_toNat_eq (by rw [opField_toNat, h]; rfl)))

theorem decode_family8 {w : Word16} (h : w.toNat / 4096 = 0x8) : decode w = (decodeFamily8 w).toOption := by
  simp only [decode_eq_toOption, decodeWord, opField_toNat, h]

theorem decode_familyE {w : Word16} (h : w.toNat / 4096 = 0xE) : decode w = (decodeFamilyE w).toOption := by
  simp only [decode_eq_toOption, decodeWord, opField_toNat, h]

theorem decode_familyF {w : Word16} (h : w.toNat / 4096 = 0xF) : decode w = (decodeFamilyF w).toOption := by
  simp only [decode_eq_toOption, decodeWord, opField_toNat, h]

/-- Family 0: the decoder makes the tests of the rows, in their order (R75). -/
theorem firstName_rows0 {w : Word16} (h : w.toNat / 4096 = 0x0) :
    firstName opcodeRows0 w = some (decodeFamily0 w).mnemonic := by
  have hword : w &&& 0xFFFF = w := BitVec.and_allOnes
  have hfamily : (OpcodeRow.mk "Sys" 0x0000 0xF000).covers w = true :=
    (covers_family (m := "Sys") (p := 0x0000) (by decide)).trans (decide_eq_true h)
  simp only [opcodeRows0, firstName, hfamily, decodeFamily0, apply_ite Instr.mnemonic, apply_ite some]
  simp only [OpcodeRow.covers, beq_iff_eq, hword, Instr.mnemonic, if_true]

theorem mnemonic_family0 {w : Word16} (h : w.toNat / 4096 = 0x0) :
    (decode w).map Instr.mnemonic = tableMnemonic w := by
  rw [decode_family0 h, tableMnemonic_eq, firstName_rows0 h]
  rfl

theorem nibField_eq_zero_iff (w : Word16) : nibField w = 0#4 ↔ w.toNat % 16 = 0 := by
  rw [← nibField_toNat, ← BitVec.toNat_inj]
  rfl

/-- Families 1 to 7 and 9 to D: one row each. -/
theorem mnemonic_one_row {w : Word16} (hlo : 0x0 < w.toNat / 4096) (hhi : w.toNat / 4096 < 0xE)
    (h8 : w.toNat / 4096 ≠ 0x8) : (decode w).map Instr.mnemonic = tableMnemonic w := by
  rw [tableMnemonic_eq, firstName_rows0_of_family_pos hlo, firstName_rowsEF_of_family_lt hhi, Option.none_or,
    Option.or_none]
  by_cases h59 : w.toNat / 4096 = 0x5 ∨ w.toNat / 4096 = 0x9
  · obtain h | h := h59 <;> by_cases hnib : w.toNat % 16 = 0 <;>
      simp [decode_eq_toOption, Except.toOption, decodeWord, opField_toNat, nibField_eq_zero_iff, h, hnib,
        opcodeRows1, firstName, covers_family, covers_lowNibble, Instr.mnemonic]
  · obtain ⟨h5, h9⟩ := not_or.1 h59
    generalize h : w.toNat / 4096 = op at *
    interval_cases op
    any_goals contradiction
    all_goals
      simp [decode, decodeWord, opField_toNat, h, opcodeRows1, firstName, covers_family, covers_lowNibble,
        Instr.mnemonic]

theorem mnemonic_family8 {w : Word16} (h : w.toNat / 4096 = 0x8) :
    (decode w).map Instr.mnemonic = tableMnemonic w := by
  rw [tableMnemonic_eq, firstName_rows0_of_family_pos (by omega), firstName_rowsEF_of_family_lt (by omega),
    Option.none_or, Option.or_none, decode_family8 h]
  simp only [opcodeRows1, decodeFamily8, nibField_toNat]
  split <;> simp_all [firstName, covers_family, covers_lowNibble, Instr.mnemonic, Except.toOption]

theorem mnemonic_familyE {w : Word16} (h : w.toNat / 4096 = 0xE) :
    (decode w).map Instr.mnemonic = tableMnemonic w := by
  rw [tableMnemonic_eq, firstName_rows0_of_family_pos (by omega), firstName_rows1_of_family_ge (by omega),
    Option.none_or, Option.none_or, decode_familyE h]
  simp only [opcodeRowsEF, decodeFamilyE, immField_toNat]
  split <;> simp_all [firstName, covers_lowByte, Instr.mnemonic, Except.toOption]

theorem mnemonic_familyF {w : Word16} (h : w.toNat / 4096 = 0xF) :
    (decode w).map Instr.mnemonic = tableMnemonic w := by
  rw [tableMnemonic_eq, firstName_rows0_of_family_pos (by omega), firstName_rows1_of_family_ge (by omega),
    Option.none_or, Option.none_or, decode_familyF h]
  simp only [opcodeRowsEF, decodeFamilyF, immField_toNat]
  split <;> simp_all [firstName, covers_lowByte, Instr.mnemonic, Except.toOption]

/-- Settles O3: family by family, the decoder and the rows test the same fields. -/
theorem decoderFollowsOpcodeTable : Obligations.DecoderFollowsOpcodeTable := by
  unfold Obligations.DecoderFollowsOpcodeTable
  intro w
  have hlt := w.isLt
  by_cases h0 : w.toNat / 4096 = 0x0
  · exact mnemonic_family0 h0
  by_cases h8 : w.toNat / 4096 = 0x8
  · exact mnemonic_family8 h8
  by_cases hE : w.toNat / 4096 = 0xE
  · exact mnemonic_familyE hE
  by_cases hF : w.toNat / 4096 = 0xF
  · exact mnemonic_familyF hF
  · exact mnemonic_one_row (by omega) (by omega) h8

/-! ## The invalid words (R80) -/

theorem toOption_family8_eq_none_iff (w : Word16) : (decodeFamily8 w).toOption = none ↔
    w.toNat % 16 ∈ [0x8, 0x9, 0xA, 0xB, 0xC, 0xD, 0xF] := by
  have hlt : w.toNat % 16 < 16 := by omega
  simp only [decodeFamily8, nibField_toNat]
  generalize w.toNat % 16 = n at *
  interval_cases n <;> simp [Except.toOption]

theorem toOption_familyE_eq_none_iff (w : Word16) : (decodeFamilyE w).toOption = none ↔
    w.toNat % 256 ∉ [0x9E, 0xA1] := by
  simp only [decodeFamilyE, immField_toNat]
  split <;> simp_all [Except.toOption]

theorem toOption_familyF_eq_none_iff (w : Word16) : (decodeFamilyF w).toOption = none ↔
    w.toNat % 256 ∉ [0x07, 0x0A, 0x15, 0x18, 0x1E, 0x29, 0x30, 0x33, 0x55, 0x65, 0x75, 0x85] := by
  simp only [decodeFamilyF, immField_toNat]
  split <;> simp_all [Except.toOption]

/-- Families 5 and 9 need a low nibble of 0, and no other of the families 1 to 7 and 9 to D refuses a word. -/
theorem decode_one_row_eq_none_iff {w : Word16} (hlo : 0x0 < w.toNat / 4096) (hhi : w.toNat / 4096 < 0xE)
    (h8 : w.toNat / 4096 ≠ 0x8) :
    decode w = none ↔ (w.toNat / 4096 = 0x5 ∨ w.toNat / 4096 = 0x9) ∧ w.toNat % 16 ≠ 0 := by
  by_cases h59 : w.toNat / 4096 = 0x5 ∨ w.toNat / 4096 = 0x9
  · obtain h | h := h59 <;> by_cases hnib : w.toNat % 16 = 0 <;>
      simp [decode_eq_toOption, Except.toOption, decodeWord, opField_toNat, nibField_eq_zero_iff, h, hnib]
  · obtain ⟨h5, h9⟩ := not_or.1 h59
    generalize h : w.toNat / 4096 = op at *
    interval_cases op
    any_goals contradiction
    all_goals simp [decode, decodeWord, opField_toNat, h]

/-- Settles O4: by the family of the word. -/
theorem invalidWordsAreExactlyFiveKinds : Obligations.InvalidWordsAreExactlyFiveKinds := by
  unfold Obligations.InvalidWordsAreExactlyFiveKinds
  intro w
  have hlt := w.isLt
  by_cases h0 : w.toNat / 4096 = 0x0
  · simp [decode_family0 h0, h0]
  by_cases h8 : w.toNat / 4096 = 0x8
  · rw [decode_family8 h8, toOption_family8_eq_none_iff]
    simp [h8]
  by_cases hE : w.toNat / 4096 = 0xE
  · rw [decode_familyE hE, toOption_familyE_eq_none_iff]
    simp [hE]
  by_cases hF : w.toNat / 4096 = 0xF
  · rw [decode_familyF hF, toOption_familyF_eq_none_iff]
    simp [hF]
  · rw [decode_one_row_eq_none_iff (by omega) (by omega) h8]
    simp only [h8, hE, hF, false_and, or_false, false_or, or_and_right]

/-! ## The patterns, written by arithmetic (R75–R79) -/

theorem wordAddr_eq_formAddr (op : Nibble) (addr : Addr12) : wordAddr op.toNat addr = formAddr op addr := by
  have := op.isLt
  have := addr.isLt
  apply BitVec.eq_of_toNat_eq
  rw [wordAddr, formAddr_toNat, BitVec.toNat_ofNat]
  omega

theorem wordXYN_eq_formXYN (op : Nibble) (x y : RegIndex) (nib : Nibble) :
    wordXYN op.toNat x y nib.toNat = formXYN op x y nib := by
  have := op.isLt
  have := nib.isLt
  apply BitVec.eq_of_toNat_eq
  rw [wordXYN, formXYN_toNat, BitVec.toNat_ofNat]
  omega

/-- A fixed function byte is an immediate like any other. -/
theorem wordX_eq_formXImm (op : Nibble) (x : RegIndex) (imm : Byte) : wordX op.toNat x imm.toNat = formXImm op x imm :=
  wordXImm_eq_formXImm op x imm

theorem decode_of_word_eq_encode {w : Word16} {i : Instr} (h : w = encode i) (hi : i.WellFormed) :
    decode w = some i := by
  rw [h, decode_encode hi]

/-- A shift decodes from any `y` (R77). -/
theorem decode_shift (x y : RegIndex) :
    decode (formXYN 0x8 x y 0x6) = some (.shr x) ∧ decode (formXYN 0x8 x y 0xE) = some (.shl x) := by
  simp [decode, decodeWord, decodeFamily8]

theorem decode_scd_word (nib : Nibble) : decode (BitVec.ofNat 16 (0x00C0 + nib.toNat)) = some (.scd nib) := by
  have := nib.isLt
  refine decode_of_word_eq_encode (BitVec.eq_of_toNat_eq ?_) rfl
  rw [encode, append_toNat, BitVec.toNat_ofNat]
  simp
  omega

theorem decode_addr_words (addr : Addr12) :
    (isSpecialAddr addr = false → decode (wordAddr 0x0 addr) = some (.sys addr)) ∧
    decode (wordAddr 0x1 addr) = some (.jump addr) ∧ decode (wordAddr 0x2 addr) = some (.call addr) ∧
    decode (wordAddr 0xA addr) = some (.loadAddr addr) ∧ decode (wordAddr 0xB addr) = some (.jumpAddrPlusV0 addr) :=
  ⟨fun h => decode_of_word_eq_encode (wordAddr_eq_formAddr 0x0 addr) (by simp [Instr.WellFormed, Instr.wellFormed, h]),
    decode_of_word_eq_encode (wordAddr_eq_formAddr 0x1 addr) rfl,
    decode_of_word_eq_encode (wordAddr_eq_formAddr 0x2 addr) rfl,
    decode_of_word_eq_encode (wordAddr_eq_formAddr 0xA addr) rfl,
    decode_of_word_eq_encode (wordAddr_eq_formAddr 0xB addr) rfl⟩

theorem decode_xImm_words (x : RegIndex) (imm : Byte) :
    decode (wordXImm 0x3 x imm) = some (.skipEqImm x imm) ∧ decode (wordXImm 0x4 x imm) = some (.skipNeqImm x imm) ∧
    decode (wordXImm 0x6 x imm) = some (.loadImm x imm) ∧ decode (wordXImm 0x7 x imm) = some (.addImm x imm) ∧
    decode (wordXImm 0xC x imm) = some (.randModImm x imm) :=
  ⟨decode_of_word_eq_encode (wordXImm_eq_formXImm 0x3 x imm) rfl,
    decode_of_word_eq_encode (wordXImm_eq_formXImm 0x4 x imm) rfl, decode_wordXImm_six x imm,
    decode_of_word_eq_encode (wordXImm_eq_formXImm 0x7 x imm) rfl,
    decode_of_word_eq_encode (wordXImm_eq_formXImm 0xC x imm) rfl⟩

/-- Settles O5: each word by arithmetic is the one the encoder forms, but for the free `y` of a shift. -/
theorem everyPatternDecodesToItsOperands : Obligations.EveryPatternDecodesToItsOperands := by
  unfold Obligations.EveryPatternDecodesToItsOperands
  refine ⟨decode_scd_word, by decide, decode_addr_words, decode_xImm_words, fun x y => ?registers, fun x => ?functions⟩
  case registers =>
    have hxyn {i : Instr} (op nib : Nibble) (he : formXYN op x y nib = encode i) (hi : i.WellFormed) :
        decode (wordXYN op.toNat x y nib.toNat) = some i :=
      decode_of_word_eq_encode ((wordXYN_eq_formXYN op x y nib).trans he) hi
    have hshr := (decode_shift x y).1
    have hshl := (decode_shift x y).2
    rw [← wordXYN_eq_formXYN] at hshr hshl
    exact ⟨hxyn 0x5 0x0 rfl rfl, hxyn 0x9 0x0 rfl rfl, hxyn 0x8 0x0 rfl rfl, hxyn 0x8 0x1 rfl rfl,
      hxyn 0x8 0x2 rfl rfl, hxyn 0x8 0x3 rfl rfl, hxyn 0x8 0x4 rfl rfl, hxyn 0x8 0x5 rfl rfl, hshr,
      hxyn 0x8 0x7 rfl rfl, hshl, fun nib => hxyn 0xD nib rfl rfl⟩
  case functions =>
    have hx {i : Instr} (op : Nibble) (imm : Byte) (he : formXImm op x imm = encode i) (hi : i.WellFormed) :
        decode (wordX op.toNat x imm.toNat) = some i :=
      decode_of_word_eq_encode ((wordX_eq_formXImm op x imm).trans he) hi
    exact ⟨hx 0xE 0x9E rfl rfl, hx 0xE 0xA1 rfl rfl, hx 0xF 0x07 rfl rfl, hx 0xF 0x0A rfl rfl, hx 0xF 0x15 rfl rfl,
      hx 0xF 0x18 rfl rfl, hx 0xF 0x1E rfl rfl, hx 0xF 0x29 rfl rfl, hx 0xF 0x30 rfl rfl, hx 0xF 0x33 rfl rfl,
      hx 0xF 0x55 rfl rfl, hx 0xF 0x65 rfl rfl, hx 0xF 0x75 rfl rfl, hx 0xF 0x85 rfl rfl⟩

/-- Settles O6: nine words, decoded. -/
theorem sampleWordsDecode : Obligations.SampleWordsDecode := by
  unfold Obligations.SampleWordsDecode
  decide

end Sys2Proof.Proofs
end

section
/-! What the meaning of an instruction can do (60_exceptions.md R220–R226): the errors it raises, as a function of the
instruction and the state, and the state it may write when it raises none. The statements about all 44 instructions
follow from these two, and so do the failure clauses of the single instructions. -/

namespace Sys2Proof.Proofs

open Sys2Proof Sys2Proof.Machine Sys2Proof.Claims

/-! ## Errors -/

/-- The error of a block access of `n` bytes at `I` (R44, R45). -/
def blockFailure (s : State) (n : Nat) : Option Fault :=
  if s.i.toNat + n < 4096 then none else some .addressOutOfRange

/-- The error the instruction raises in the state, if any (R220, R221, R227). -/
def failure (i : Instr) (s : State) : Option Fault :=
  match i with
  | .call _ =>
    if s.sp.toNat < 16 then none else if s.sp.toNat = 16 then some .stackOverflow else some .unspecified
  | .ret =>
    if s.sp.toNat = 0 then some .stackUnderflow else if s.sp.toNat ≤ 16 then none else some .unspecified
  | .loadAddrDigit x => if (s.reg x).toNat ≤ 15 then none else some .invalidDigitSprite
  | .loadAddrBigDigit _ => some .invalidOpcode
  | .draw _ _ nib => blockFailure s (spriteSize nib)
  | .memStoreBcd _ => blockFailure s 3
  | .memStoreRegs x | .memLoadRegs x => blockFailure s (x.val + 1)
  | .waitKey _ =>
    match s.keyAnswers with
    | .failure m :: _ => some (.unknown m)
    | _ => none
  | .rplStoreRegs x | .rplLoadRegs x => if x.val ≤ 8 then none else some (.registerOutOfRange x)
  | .skipKey x | .skipNotKey x => if (s.reg x).toNat ≤ 15 then none else some .unspecified
  | _ => none

/-- The state an error leaves: a failed `WaitKey` has used up the provider's answer, and nothing else is written
before an error is raised (R223). -/
def afterFailure (i : Instr) (s : State) : State :=
  match i with
  | .waitKey _ => { s with keyAnswers := s.keyAnswers.tail, waiting := none }
  | _ => s

/-- Which error it is does not depend on the host's policy (R231). -/
theorem failure_setPolicy (i : Instr) (s : State) (p : OnFault) : failure i { s with onFault := p } = failure i s := by
  cases i <;> rfl

theorem afterFailure_onFault (i : Instr) (s : State) : (afterFailure i s).onFault = s.onFault := by
  cases i <;> rfl

theorem afterFailure_of_ne_waitKey {i : Instr} (h : ∀ x, i ≠ .waitKey x) (s : State) : afterFailure i s = s := by
  unfold afterFailure
  split
  next x => exact absurd rfl (h x)
  next => rfl

/-! ## What is written -/

theorem onlyPc_jumpTo (s : State) (a : Word16) : OnlyPc s (s.jumpTo a) := ⟨rfl, fun _ => rfl, fun _ => rfl⟩

theorem onlyIndex_setI (s : State) (a : Word16) : OnlyIndex s (s.setI a) := ⟨rfl, fun _ => rfl, fun _ => rfl⟩

theorem onlyRegs_resultThenFlag (x : RegIndex) (result : Byte) (f : Bool) (s : State) :
    OnlyRegs (fun r => r = x ∨ r = 15) s (resultThenFlag x result f s) := by
  refine ⟨rfl, fun r hr => ?_, fun _ => rfl⟩
  obtain ⟨hx, hvf⟩ := not_or.1 hr
  exact (State.reg_setReg_ne (s.setReg x result) (flagByte f) hvf).trans (State.reg_setReg_ne s result hx)

theorem onlyRegs_flagThenShift (x : RegIndex) (f : Bool) (shift : Byte → Byte) (s : State) :
    OnlyRegs (fun r => r = x ∨ r = 15) s (flagThenShift x f shift s) := by
  refine ⟨rfl, fun r hr => ?_, fun _ => rfl⟩
  obtain ⟨hx, hvf⟩ := not_or.1 hr
  exact (State.reg_setReg_ne (s.setFlag f) _ hx).trans (State.reg_setReg_ne s (flagByte f) hvf)

/-- A block copied into the register file from `V[0]` on, register by register (R203, R207). -/
theorem reg_putBlock (s : State) (bs : List Byte) (r : RegIndex) :
    ({ s with v := putBlock s.v 0 bs } : State).reg r = if h : r.val < bs.length then bs[r.val] else s.reg r := by
  simp [State.reg, putBlock_getElem]

theorem onlyRegs_putBlock (s : State) (bs : List Byte) :
    OnlyRegs (fun r => r.val < bs.length) s { s with v := putBlock s.v 0 bs } :=
  ⟨rfl, fun r hr => by rw [reg_putBlock, dif_neg hr], fun _ => rfl⟩

theorem onlyRegs_congr {w w' : RegIndex → Prop} {s t : State} (h : OnlyRegs w s t) (hw : ∀ r, w r ↔ w' r) :
    OnlyRegs w' s t :=
  ⟨h.1, fun r hr => h.2.1 r (fun hr' => hr ((hw r).1 hr')), h.2.2⟩

/-- What an instruction that raises no error may write (R10–R26, R51). -/
def Writes (i : Instr) (s t : State) : Prop :=
  match i with
  | .cls | .scd _ | .scr | .scl => OnlyDisplay s t
  | .low | .high => t = { s with hires := t.hires }
  | .exit => t = { s with power := t.power }
  | .sys _ | .jump _ | .jumpAddrPlusV0 _ | .skipEqImm _ _ | .skipNeqImm _ _ | .skipEqReg _ _ | .skipNeqReg _ _
  | .skipKey _ | .skipNotKey _ => OnlyPc s t
  | .ret => t = { s with pc := t.pc, sp := t.sp }
  | .call _ => t = { s with pc := t.pc, sp := t.sp, stack := t.stack }
  | .loadImm x _ | .addImm x _ | .loadReg x _ | .or x _ | .and x _ | .xor x _ | .loadRegDelay x =>
    OnlyRegs (fun r => r = x) s t
  | .addReg x _ | .sub x _ | .subNeg x _ | .shr x | .shl x => OnlyRegs (fun r => r = x ∨ r = 15) s t
  | .randModImm x _ => t = { s with v := t.v, draws := t.draws } ∧ ∀ r, r ≠ x → t.reg r = s.reg r
  | .draw _ _ _ => t = { s with v := t.v, fb := t.fb } ∧ ∀ r, r ≠ 15 → t.reg r = s.reg r
  | .waitKey x =>
    t = { s with v := t.v, keyAnswers := t.keyAnswers, waiting := t.waiting } ∧ ∀ r, r ≠ x → t.reg r = s.reg r
  | .loadAddr _ | .addAddrReg _ | .loadAddrDigit _ => OnlyIndex s t
  | .loadAddrBigDigit _ => False
  | .loadDelayReg _ => t = { s with dt := t.dt }
  | .loadSoundReg _ => t = { s with st := t.st }
  | .memStoreBcd _ | .memStoreRegs _ => t = { s with mem := t.mem }
  | .memLoadRegs x => OnlyRegs (fun r => r.val ≤ x.val) s t
  | .rplStoreRegs _ => t = { s with rpl := t.rpl }
  | .rplLoadRegs x => OnlyRegs (fun r => r.val < x.val) s t

theorem skipIf_writes (c : Bool) (s : State) : ∃ t, skipIf c s = .next t ∧ OnlyPc s t :=
  ⟨_, skipIf_eq c s, rfl, fun _ => rfl, fun _ => rfl⟩

/-! ## The two ways an instruction ends -/

/-- The instruction ends with the error, and `raise` is all that happens; or, with none, in a next state that differs
only in what the instruction writes (R222, R223). -/
def EndsAs (i : Instr) (s : State) : Option Fault → Prop
  | some e => exec i s = raise e (afterFailure i s)
  | none => ∃ t, exec i s = .next t ∧ Writes i s t

theorem call_endsAs (addr : Addr12) (s : State) : EndsAs (.call addr) s (failure (.call addr) s) := by
  obtain ⟨hsp, he⟩ | ⟨hsp, he⟩ | ⟨hsp, he⟩ := execCall_cases addr s
  · have hf : failure (.call addr) s = none := if_pos hsp
    rw [hf]
    exact ⟨_, he, rfl⟩
  · have hf : failure (.call addr) s = some .stackOverflow := (if_neg (by omega)).trans (if_pos hsp)
    rw [hf]
    exact he
  · have hf : failure (.call addr) s = some .unspecified := (if_neg (by omega)).trans (if_neg (by omega))
    rw [hf]
    exact he

theorem ret_endsAs (s : State) : EndsAs .ret s (failure .ret s) := by
  obtain ⟨hsp, he⟩ | ⟨hsp, hne, he⟩ | ⟨hsp, he⟩ := execRet_cases s
  · have hf : failure .ret s = some .stackUnderflow := if_pos hsp
    rw [hf]
    exact he
  · have hf : failure .ret s = none := (if_neg hne).trans (if_pos (by omega))
    rw [hf]
    exact ⟨_, he, rfl⟩
  · have hf : failure .ret s = some .unspecified := (if_neg (by omega)).trans (if_neg (by omega))
    rw [hf]
    exact he

theorem loadAddrDigit_endsAs (x : RegIndex) (s : State) :
    EndsAs (.loadAddrDigit x) s (failure (.loadAddrDigit x) s) := by
  obtain ⟨hx, he⟩ | ⟨hx, he⟩ := execLoadAddrDigit_cases x s
  · have hf : failure (.loadAddrDigit x) s = none := if_pos hx
    rw [hf]
    exact ⟨_, he, onlyIndex_setI s _⟩
  · have hf : failure (.loadAddrDigit x) s = some .invalidDigitSprite := if_neg (by omega)
    rw [hf]
    exact he

theorem exec_keySkips_of_key {x : RegIndex} {s : State} {pressed : Bool} (h : keyPressed? s (s.reg x) = some pressed) :
    exec (.skipKey x) s = skipIf pressed s ∧ exec (.skipNotKey x) s = skipIf (!pressed) s := by
  simp only [exec, execSkipKey, execSkipNotKey, h, and_self]

theorem exec_keySkips_of_no_key {x : RegIndex} {s : State} (h : keyPressed? s (s.reg x) = none) :
    exec (.skipKey x) s = raise .unspecified s ∧ exec (.skipNotKey x) s = raise .unspecified s := by
  simp only [exec, execSkipKey, execSkipNotKey, h, and_self]

theorem keySkips_endAs (x : RegIndex) (s : State) :
    EndsAs (.skipKey x) s (failure (.skipKey x) s) ∧ EndsAs (.skipNotKey x) s (failure (.skipNotKey x) s) := by
  have hsame : failure (.skipNotKey x) s = failure (.skipKey x) s := rfl
  rw [hsame]
  by_cases hx : (s.reg x).toNat ≤ 15
  · have hf : failure (.skipKey x) s = none := if_pos hx
    obtain ⟨hskip, hskipNot⟩ := exec_keySkips_of_key (keyPressed?_some (s := s) (code := s.reg x) (by omega))
    rw [hf, EndsAs, EndsAs, hskip, hskipNot]
    exact ⟨skipIf_writes _ s, skipIf_writes _ s⟩
  · have hf : failure (.skipKey x) s = some .unspecified := if_neg hx
    rw [hf]
    exact exec_keySkips_of_no_key (keyPressed?_none (by omega))

theorem waitKey_endsAs (x : RegIndex) (s : State) : EndsAs (.waitKey x) s (failure (.waitKey x) s) := by
  obtain ⟨ha, he⟩ | ⟨c, rest, ha, he⟩ | ⟨m, rest, ha, he⟩ := execWaitKey_cases x s
  · have hf : failure (.waitKey x) s = none := by simp only [failure, ha]
    rw [hf]
    exact ⟨_, he, rfl, fun _ _ => rfl⟩
  · have hf : failure (.waitKey x) s = none := by simp only [failure, ha]
    rw [hf]
    exact ⟨_, he, rfl, fun r hr => State.reg_setReg_ne _ _ hr⟩
  · have hf : failure (.waitKey x) s = some (.unknown m) := by simp only [failure, ha]
    rw [hf, EndsAs, afterFailure, ha]
    exact he

theorem draw_endsAs (x y : RegIndex) (nib : Nibble) (s : State) :
    EndsAs (.draw x y nib) s (failure (.draw x y nib) s) := by
  obtain ⟨hb, q, -, he⟩ | ⟨hb, he⟩ := execDraw_cases x y nib s
  · have hf : failure (.draw x y nib) s = none := if_pos hb
    rw [hf]
    exact ⟨_, he, rfl, fun r hr => State.reg_setReg_ne _ _ hr⟩
  · have hf : failure (.draw x y nib) s = some .addressOutOfRange := if_neg (by omega)
    rw [hf]
    exact he

/-- A block store writes memory or is out of range, whatever the bytes. -/
theorem storeBlock_endsAs {i : Instr} {s : State} {bs : List Byte} {n : Nat} (hn : bs.length = n)
    (hi : exec i s = storeBlock bs s) (hraise : afterFailure i s = s)
    (hw : ∀ m, Writes i s { s with mem := m }) : EndsAs i s (blockFailure s n) := by
  subst hn
  obtain ⟨hb, he⟩ | ⟨hb, he⟩ := storeBlock_cases bs s
  · rw [blockFailure, if_pos hb]
    exact ⟨_, hi.trans he, hw _⟩
  · rw [blockFailure, if_neg (by omega), EndsAs, hraise]
    exact hi.trans he

theorem firstRegs_length_succ (s : State) (x : RegIndex) : (firstRegs s (x.val + 1)).length = x.val + 1 := by
  have := x.isLt
  rw [firstRegs_length]
  omega

theorem memLoadRegs_endsAs (x : RegIndex) (s : State) :
    EndsAs (.memLoadRegs x) s (failure (.memLoadRegs x) s) := by
  obtain ⟨hb, he⟩ | ⟨hb, he⟩ := execMemLoadRegs_cases x s
  · have hf : failure (.memLoadRegs x) s = none := if_pos hb
    rw [hf]
    refine ⟨_, he, onlyRegs_congr (onlyRegs_putBlock s _) fun r => ?_⟩
    rw [Memory.readMany_length, Nat.lt_succ_iff]
  · have hf : failure (.memLoadRegs x) s = some .addressOutOfRange := if_neg (by omega)
    rw [hf]
    exact he

theorem rplStoreRegs_endsAs (x : RegIndex) (s : State) :
    EndsAs (.rplStoreRegs x) s (failure (.rplStoreRegs x) s) := by
  obtain ⟨hx, he⟩ | ⟨hx, he⟩ := execRplStoreRegs_cases x s
  · have hf : failure (.rplStoreRegs x) s = none := if_pos hx
    rw [hf]
    exact ⟨_, he, rfl⟩
  · have hf : failure (.rplStoreRegs x) s = some (.registerOutOfRange x) := if_neg (by omega)
    rw [hf]
    exact he

theorem rplLoadRegs_endsAs (x : RegIndex) (s : State) :
    EndsAs (.rplLoadRegs x) s (failure (.rplLoadRegs x) s) := by
  obtain ⟨hx, he⟩ | ⟨hx, he⟩ := execRplLoadRegs_cases x s
  · have hf : failure (.rplLoadRegs x) s = none := if_pos hx
    rw [hf]
    refine ⟨_, he, onlyRegs_congr (onlyRegs_putBlock s _) fun r => ?_⟩
    simp only [List.length_take, Vector.length_toList]
    omega
  · have hf : failure (.rplLoadRegs x) s = some (.registerOutOfRange x) := if_neg (by omega)
    rw [hf]
    exact he

/-- Every instruction ends in one of the two ways. -/
theorem exec_endsAs (i : Instr) (s : State) : EndsAs i s (failure i s) := by
  cases i with
  | call addr => exact call_endsAs addr s
  | ret => exact ret_endsAs s
  | loadAddrDigit x => exact loadAddrDigit_endsAs x s
  | loadAddrBigDigit x => rfl
  | skipKey x => exact (keySkips_endAs x s).1
  | skipNotKey x => exact (keySkips_endAs x s).2
  | waitKey x => exact waitKey_endsAs x s
  | draw x y nib => exact draw_endsAs x y nib s
  | memStoreBcd x => exact storeBlock_endsAs (bcdDigits_length (s.reg x)) rfl rfl fun _ => rfl
  | memStoreRegs x => exact storeBlock_endsAs (firstRegs_length_succ s x) rfl rfl fun _ => rfl
  | memLoadRegs x => exact memLoadRegs_endsAs x s
  | rplStoreRegs x => exact rplStoreRegs_endsAs x s
  | rplLoadRegs x => exact rplLoadRegs_endsAs x s
  | scd | cls | scr | scl => exact ⟨_, rfl, onlyDisplay_set_fb s _⟩
  | low | high | exit | loadDelayReg | loadSoundReg => exact ⟨_, rfl, rfl⟩
  | sys | jump | jumpAddrPlusV0 => exact ⟨_, rfl, onlyPc_jumpTo s _⟩
  | skipEqImm | skipNeqImm | skipEqReg | skipNeqReg => exact skipIf_writes _ s
  | loadImm | loadReg | addImm | or | and | xor | loadRegDelay => exact ⟨_, rfl, onlyRegs_setReg s _ _⟩
  | addReg | sub | subNeg => exact ⟨_, rfl, onlyRegs_resultThenFlag _ _ _ s⟩
  | shr | shl => exact ⟨_, rfl, onlyRegs_flagThenShift _ _ _ s⟩
  | randModImm => exact ⟨_, rfl, rfl, fun r hr => State.reg_setReg_ne _ _ hr⟩
  | loadAddr | addAddrReg => exact ⟨_, rfl, onlyIndex_setI s _⟩

theorem exec_of_failure {i : Instr} {s : State} {e : Fault} (h : failure i s = some e) :
    exec i s = raise e (afterFailure i s) := by
  have := exec_endsAs i s
  rwa [h] at this

theorem exec_of_no_failure {i : Instr} {s : State} (h : failure i s = none) :
    ∃ t, exec i s = .next t ∧ Writes i s t := by
  have := exec_endsAs i s
  rwa [h] at this

/-- All that leads from an instruction to a next state. -/
theorem exec_next_cases {i : Instr} {s t : State} (h : exec i s = .next t) :
    Writes i s t ∨ ∃ e, failure i s = some e ∧ t = { afterFailure i s with returned := some e } := by
  cases hf : failure i s with
  | none =>
    obtain ⟨u, hu, hw⟩ := exec_of_no_failure hf
    rw [hu] at h
    cases h
    exact .inl hw
  | some e =>
    rw [exec_of_failure hf] at h
    obtain ⟨-, -, ht⟩ := raise_next h
    exact .inr ⟨e, rfl, ht⟩

theorem failure_of_exec_fault {i : Instr} {s : State} {e : Fault} (h : exec i s = .fault e) : failure i s = some e := by
  cases hf : failure i s with
  | none =>
    obtain ⟨u, hu, -⟩ := exec_of_no_failure hf
    rw [hu] at h
    cases h
  | some f =>
    rw [exec_of_failure hf] at h
    rw [raise_fault h]

theorem exec_ne_refused (i : Instr) (s : State) (r : Refusal) : exec i s ≠ .refused r := by
  cases hf : failure i s with
  | none =>
    obtain ⟨u, hu, -⟩ := exec_of_no_failure hf
    rw [hu]
    exact nofun
  | some f =>
    rw [exec_of_failure hf]
    exact raise_ne_refused

/-- The failure clause of an instruction other than `WaitKey`. -/
theorem raises_of_failure {i : Instr} {s : State} {e : Fault} (hf : failure i s = some e) (he : e ≠ .unspecified)
    (hi : ∀ x, i ≠ .waitKey x) : Raises i s e := by
  unfold Raises
  rw [exec_of_failure hf, afterFailure_of_ne_waitKey hi]
  exact ⟨raise_stop, fun h => raise_goOn h he⟩

/-! ## The writers of each piece of state -/

/-- The instruction may write the general register: as a destination, by a block that reaches it or, for VF, as the
flag (R10, R11). -/
def RegWriter (i : Instr) (r : RegIndex) : Prop :=
  (∃ n, i = .loadImm r n) ∨ (∃ y, i = .loadReg r y) ∨ (∃ n, i = .addImm r n) ∨
  (∃ y, i = .or r y ∨ i = .and r y ∨ i = .xor r y) ∨ (∃ n, i = .randModImm r n) ∨
  i = .loadRegDelay r ∨ i = .waitKey r ∨
  (∃ x y, (i = .addReg x y ∨ i = .sub x y ∨ i = .subNeg x y) ∧ (r = x ∨ r = 15)) ∨
  (∃ x, (i = .shr x ∨ i = .shl x) ∧ (r = x ∨ r = 15)) ∨ (∃ x y n, i = .draw x y n ∧ r = 15) ∨
  (∃ x, i = .memLoadRegs x ∧ r.val ≤ x.val) ∨ (∃ x, i = .rplLoadRegs x ∧ r.val < x.val)

/-- The registers outside the frame are as before, so a register that differs lies in it. -/
theorem regWriter_of_frame {i : Instr} {w : RegIndex → Prop} {s t : State}
    (hframe : ∀ r, ¬ w r → t.reg r = s.reg r) (hw : ∀ r, w r → RegWriter i r) (r : RegIndex)
    (hr : t.reg r ≠ s.reg r) : RegWriter i r :=
  hw r (not_imp_comm.1 (hframe r) hr)

/-- Settles O57: what an instruction writes without an error, and that an error writes nothing but what the host and
the provider hold. -/
theorem onlyListedInstructionsWriteEachState : Obligations.OnlyListedInstructionsWriteEachState := by
  unfold Obligations.OnlyListedInstructionsWriteEachState
  intro i s t h
  obtain hw | ⟨e, hf, rfl⟩ := exec_next_cases h
  case inl =>
    cases i with
    | scd | cls | scr | scl =>
      obtain ⟨fb, rfl⟩ : ∃ fb, t = { s with fb := fb } := ⟨t.fb, hw.1⟩
      simp [State.reg]
    | low | high =>
      obtain ⟨hires, rfl⟩ : ∃ hires, t = { s with hires := hires } := ⟨t.hires, hw⟩
      simp [State.reg]
    | exit =>
      obtain ⟨power, rfl⟩ : ∃ power, t = { s with power := power } := ⟨t.power, hw⟩
      simp [State.reg]
    | sys | jump | jumpAddrPlusV0 | skipEqImm | skipNeqImm | skipEqReg | skipNeqReg | skipKey | skipNotKey =>
      obtain ⟨pc, rfl⟩ : ∃ pc, t = { s with pc := pc } := ⟨t.pc, hw.1⟩
      simp [State.reg]
    | ret =>
      obtain ⟨pc, sp, rfl⟩ : ∃ pc sp, t = { s with pc := pc, sp := sp } := ⟨t.pc, t.sp, hw⟩
      simp [State.reg]
    | call =>
      obtain ⟨pc, sp, stack, rfl⟩ : ∃ pc sp stack, t = { s with pc := pc, sp := sp, stack := stack } :=
        ⟨t.pc, t.sp, t.stack, hw⟩
      simp [State.reg]
    | loadImm | addImm | loadReg | or | and | xor | loadRegDelay | addReg | sub | subNeg | shr | shl | memLoadRegs
    | rplLoadRegs =>
      refine ⟨regWriter_of_frame hw.2.1 (by simp [RegWriter]), ?_⟩
      obtain ⟨v, rfl⟩ : ∃ v, t = { s with v := v } := ⟨t.v, hw.1⟩
      simp
    | randModImm =>
      refine ⟨regWriter_of_frame hw.2 (by simp [RegWriter]), ?_⟩
      obtain ⟨v, draws, rfl⟩ : ∃ v draws, t = { s with v := v, draws := draws } := ⟨t.v, t.draws, hw.1⟩
      simp
    | draw =>
      refine ⟨regWriter_of_frame hw.2 (by simp [RegWriter]), ?_⟩
      obtain ⟨v, fb, rfl⟩ : ∃ v fb, t = { s with v := v, fb := fb } := ⟨t.v, t.fb, hw.1⟩
      simp
    | waitKey =>
      refine ⟨regWriter_of_frame hw.2 (by simp [RegWriter]), ?_⟩
      obtain ⟨v, answers, waiting, rfl⟩ : ∃ v answers waiting,
          t = { s with v := v, keyAnswers := answers, waiting := waiting } := ⟨t.v, t.keyAnswers, t.waiting, hw.1⟩
      simp
    | loadAddr | addAddrReg | loadAddrDigit =>
      obtain ⟨i, rfl⟩ : ∃ i, t = { s with i := i } := ⟨t.i, hw.1⟩
      simp [State.reg]
    | loadAddrBigDigit => exact hw.elim
    | loadDelayReg =>
      obtain ⟨dt, rfl⟩ : ∃ dt, t = { s with dt := dt } := ⟨t.dt, hw⟩
      simp [State.reg]
    | loadSoundReg =>
      obtain ⟨st, rfl⟩ : ∃ st, t = { s with st := st } := ⟨t.st, hw⟩
      simp [State.reg]
    | memStoreBcd | memStoreRegs =>
      obtain ⟨mem, rfl⟩ : ∃ mem, t = { s with mem := mem } := ⟨t.mem, hw⟩
      simp [State.reg]
    | rplStoreRegs =>
      obtain ⟨rpl, rfl⟩ : ∃ rpl, t = { s with rpl := rpl } := ⟨t.rpl, hw⟩
      simp [State.reg]
  case inr =>
    by_cases hi : ∃ x, i = .waitKey x
    · obtain ⟨x, rfl⟩ := hi
      simp [State.reg, afterFailure]
    · rw [afterFailure_of_ne_waitKey (fun x hx => hi ⟨x, hx⟩)]
      simp [State.reg]

/-! ## The operations that fail -/

/-- `I` past the last address. -/
def indexAtTop : State := { State.reset with i := 0xFFFF }

theorem blockFailure_indexAtTop (n : Nat) : blockFailure indexAtTop n = some .addressOutOfRange := by
  have hi : indexAtTop.i.toNat = 0xFFFF := rfl
  exact if_neg (by omega)

/-- An error under the policy `stop` of reset is a fault. -/
theorem canFail_of_failure {i : Instr} {e : Fault} (s : State) (hsp : s.sp.toNat ≤ 16) (hp : s.onFault = .stop)
    (hf : failure i s = some e) : CanFail i e :=
  ⟨s, hsp, by rw [exec_of_failure hf, raise_stop ((afterFailure_onFault i s).trans hp)]⟩

/-- Every general register at 16, a value that names no digit and no key. -/
def allSixteen : State := { State.reset with v := Vector.replicate 16 16 }

theorem allSixteen_reg (x : RegIndex) : (allSixteen.reg x).toNat = 16 := by
  simp [allSixteen, State.reg]

theorem eq_of_ite_none_some {c : Prop} [Decidable c] {e f : Fault} (h : (if c then none else some f) = some e) :
    e = f := by
  split at h <;> cases h
  rfl

/-- Settles O58: `failure` arm by arm, and for each of its errors a state that has it. -/
theorem onlyElevenOperationsFail : Obligations.OnlyElevenOperationsFail := by
  unfold Obligations.OnlyElevenOperationsFail
  refine ⟨fun i s hsp => ⟨exec_ne_refused i s, fun e he => ?kinds⟩, fun a => ?call, ?ret, fun x y n => ?draw,
    fun x => ⟨?digit, ?bigDigit, ?bcd, ?store, ?load, fun m => ?wait, fun hx => ⟨?rplStore, ?rplLoad⟩, ?key, ?notKey⟩⟩
  case kinds =>
    have hf := failure_of_exec_fault he
    cases i with
    | call addr =>
      obtain h | h := lt_or_eq_of_le hsp
      · exact nomatch (if_pos h).symm.trans hf
      · have hfail : failure (.call addr) s = some .stackOverflow := (if_neg (by omega)).trans (if_pos h)
        simp [Option.some.inj (hf.symm.trans hfail)]
    | ret =>
      by_cases h : s.sp.toNat = 0
      · have hfail : failure .ret s = some .stackUnderflow := if_pos h
        simp [Option.some.inj (hf.symm.trans hfail)]
      · exact nomatch ((if_neg h).trans (if_pos hsp)).symm.trans hf
    | waitKey =>
      simp only [failure] at hf
      split at hf <;> cases hf
      simp
    | loadAddrBigDigit =>
      cases hf
      simp
    | loadAddrDigit | draw | memStoreBcd | memStoreRegs | memLoadRegs | rplStoreRegs | rplLoadRegs | skipKey
    | skipNotKey => simp [eq_of_ite_none_some hf]
    | _ => cases hf
  case call => exact canFail_of_failure { State.reset with sp := 16 } (by decide) rfl rfl
  case ret => exact canFail_of_failure .reset (by decide) rfl rfl
  case draw => exact canFail_of_failure indexAtTop (by decide) rfl (blockFailure_indexAtTop _)
  case digit => exact canFail_of_failure allSixteen (by decide) rfl (if_neg (by rw [allSixteen_reg]; decide))
  case bigDigit => exact canFail_of_failure .reset (by decide) rfl rfl
  case bcd => exact canFail_of_failure indexAtTop (by decide) rfl (blockFailure_indexAtTop _)
  case store => exact canFail_of_failure indexAtTop (by decide) rfl (blockFailure_indexAtTop _)
  case load => exact canFail_of_failure indexAtTop (by decide) rfl (blockFailure_indexAtTop _)
  case wait => exact canFail_of_failure { State.reset with keyAnswers := [.failure m] } (Nat.zero_le 16) rfl rfl
  case rplStore => exact canFail_of_failure .reset (by decide) rfl (if_neg (by omega))
  case rplLoad => exact canFail_of_failure .reset (by decide) rfl (if_neg (by omega))
  case key => exact canFail_of_failure allSixteen (by decide) rfl (if_neg (by rw [allSixteen_reg]; decide))
  case notKey => exact canFail_of_failure allSixteen (by decide) rfl (if_neg (by rw [allSixteen_reg]; decide))

/-- Settles O59: the error does not depend on the policy, and `raise` is all that happens. -/
theorem failedInstructionLeavesTheCoreUnchanged : Obligations.FailedInstructionLeavesTheCoreUnchanged := by
  unfold Obligations.FailedInstructionLeavesTheCoreUnchanged
  intro i s e hw hp he h
  have hf : failure i { s with onFault := .goOn } = some e := by
    rw [failure_setPolicy, failure_of_exec_fault h]
  refine ⟨_, (exec_of_failure hf).trans (raise_goOn (afterFailure_onFault i _) he), ?same, fun hi => ?answers⟩
  case same =>
    cases i
    case waitKey => simp [afterFailure, hw]
    all_goals rfl
  case answers => rw [afterFailure_of_ne_waitKey hi]

end Sys2Proof.Proofs
end

section
/-! The machine step (60_exceptions.md R225, R235–R241; 70_reset_and_hazards.md R260–R262): what the host's next event
does, what a halted machine keeps, and the invariant, kept by every event. -/

namespace Sys2Proof.Proofs

open Sys2Proof Sys2Proof.Machine Sys2Proof.Claims

/-! ## The host's next event -/

/-- With no `WaitKey` in progress the host has a next event. -/
theorem exists_issues {s : State} (hw : s.waiting = none) : ∃ e u, Issues s e u := by
  cases hs : s.schedule with
  | nil => exact ⟨_, _, hw, .inr ⟨hs, rfl, rfl⟩⟩
  | cons e rest => exact ⟨e, _, hw, .inl ⟨rest, hs, rfl⟩⟩

/-- Taking the event touches the host's side of the state alone. -/
theorem issues_state {s u : State} {e : HostEvent} (h : Issues s e u) :
    ∃ schedule moves, u = { s with schedule := schedule, moves := moves } := by
  obtain ⟨-, ⟨rest, -, rfl⟩ | ⟨-, -, rfl⟩⟩ := h
  · exact ⟨rest, s.moves, rfl⟩
  · exact ⟨s.schedule, s.moves + 1, rfl⟩

/-- The machine step is the event, listed or free. -/
theorem step_of_issues {s u : State} {e : HostEvent} (h : Issues s e u) : step s = applyEvent e u := by
  obtain ⟨hw, ⟨rest, hs, rfl⟩ | ⟨hs, rfl, rfl⟩⟩ := h
  · exact step_cons hw hs
  · exact step_free hw hs

/-! ## The sequencer (R225) -/

/-- The word a fetch reads is its two bytes joined. -/
theorem wordAtPc_eq (s : State) :
    wordAtPc s = joinBytes (s.mem.read s.pc.toNat) (s.mem.read (s.pc.toNat + 1)) := by
  have := (s.mem.read s.pc.toNat).isLt
  have := (s.mem.read (s.pc.toNat + 1)).isLt
  apply BitVec.eq_of_toNat_eq
  rw [joinBytes_toNat, wordAtPc, BitVec.toNat_ofNat]
  omega

theorem coreStep_of_no_word {s : State} (hp : s.power = .running)
    (h : 0xFFF ≤ s.pc.toNat ∨ decode (wordAtPc s) = none) : coreStep s = raise .invalidOpcode s := by
  obtain ⟨hle, hf⟩ | ⟨-, hf⟩ := fetchInstr_cases s.mem s.pc.toNat
  · obtain h | h := h
    · omega
    · exact coreStep_no_decode hp hf (wordAtPc_eq s ▸ h)
  · exact coreStep_no_fetch hp hf

theorem coreStep_of_word {s : State} {i : Instr} (hp : s.power = .running) (hpc : s.pc.toNat ≤ 0xFFE)
    (hd : decode (wordAtPc s) = some i) : coreStep s = exec i { s with pc := s.pc + 2 } := by
  obtain ⟨-, hf⟩ | ⟨hge, -⟩ := fetchInstr_cases s.mem s.pc.toNat
  · exact coreStep_exec hp hf (wordAtPc_eq s ▸ hd)
  · omega

/-- Settles O8: the sequencer's exits, one by one. -/
theorem sequencerFetchesDecodesAdvancesExecutes : Obligations.SequencerFetchesDecodesAdvancesExecutes := by
  unfold Obligations.SequencerFetchesDecodesAdvancesExecutes
  refine fun s => ⟨coreStep_halted, fun hp h => ?_, fun i hp hpc hd => coreStep_of_word hp hpc hd⟩
  rw [coreStep_of_no_word hp h]
  exact ⟨raise_stop, fun hgo => ⟨_, raise_goOn hgo nofun, rfl, rfl⟩⟩

/-- Settles O7: the event taken, the sequencer executes the decoded word. -/
theorem stepRunsDecodedInstruction : Obligations.StepRunsDecodedInstruction := by
  unfold Obligations.StepRunsDecodedInstruction
  intro s u i h hp hpc hd
  rw [step_of_issues h, applyEvent_step]
  obtain ⟨schedule, moves, rfl⟩ := issues_state h
  exact coreStep_of_word hp hpc hd

/-- Settles O9: the event taken, the sequencer raises `InvalidOpcode` before it advances `PC`. -/
theorem fetchOrDecodeFailureKeepsPc : Obligations.FetchOrDecodeFailureKeepsPc := by
  unfold Obligations.FetchOrDecodeFailureKeepsPc
  intro s u h hp hd
  rw [step_of_issues h, applyEvent_step]
  obtain ⟨schedule, moves, rfl⟩ := issues_state h
  rw [coreStep_of_no_word (by exact hp) (by exact hd)]
  exact ⟨fun hstop => raise_stop hstop, fun hgo => raise_goOn hgo nofun⟩

theorem step_of_halted {s u : State} (h : Issues s .step u) (hp : s.power = .halted) :
    step s = .next { u with romOpen := false, returned := none } := by
  rw [step_of_issues h, applyEvent_step]
  obtain ⟨schedule, moves, rfl⟩ := issues_state h
  exact coreStep_halted hp

/-- Settles O10: the power check comes first. -/
theorem haltedStepDoesNothing : Obligations.HaltedStepDoesNothing := by
  unfold Obligations.HaltedStepDoesNothing
  exact fun s u => step_of_halted

/-! ## Ticks, keys and `load_rom` (R235, R238, R262) -/

theorem countDown_toNat (b : Byte) : (countDown b).toNat = b.toNat - 1 := by
  unfold countDown
  split <;> bv_omega

/-- Settles O12: `tick` counts both timers down. -/
theorem tickLowersBothTimers : Obligations.TickLowersBothTimers := by
  unfold Obligations.TickLowersBothTimers
  intro s u h
  refine ⟨tick u, by rw [step_of_issues h, applyEvent_tick], ?_⟩
  obtain ⟨schedule, moves, rfl⟩ := issues_state h
  exact ⟨countDown_toNat s.dt, countDown_toNat s.st, rfl⟩

theorem key_set (key : Vector Bool 16) (code k : Fin 16) (b : Bool) :
    (key.set code.val b)[k.val] = if k = code then b else key[k.val] := by
  simp only [Vector.getElem_set, Fin.ext_iff, eq_comm]

/-- Settles O13: a key event is one write to the latch. -/
theorem keyEventsWriteTheLatch : Obligations.KeyEventsWriteTheLatch := by
  unfold Obligations.KeyEventsWriteTheLatch
  refine fun s u code => ⟨fun h => ⟨pressKey code u, ?_⟩, fun h => ⟨releaseKey code u, ?_⟩⟩
  all_goals
    rw [step_of_issues h]
    obtain ⟨schedule, moves, rfl⟩ := issues_state h
    exact ⟨rfl, fun k => key_set s.key code k _, rfl⟩

/-- A block write, byte by byte: the block's bytes and the bytes outside it (R45). -/
theorem read_writeMany_block {m : Memory} {a : Nat} {bs : List Byte} (hm : m.wf = true) (ha : a + bs.length ≤ 4096) :
    (∀ k, k < bs.length → (m.writeMany a bs).read (a + k) = bs.getD k 0) ∧
    (∀ c, c < a ∨ a + bs.length ≤ c → (m.writeMany a bs).read c = m.read c) := by
  constructor
  · intro k hk
    rw [Memory.read_writeMany hm ha, dif_pos ⟨by omega, by omega⟩, List.getD_eq_getElem _ _ hk]
    simp only [Nat.add_sub_cancel_left]
  · intro c hc
    rw [Memory.read_writeMany hm ha, dif_neg (by omega)]

/-- Settles O14: the three ends of `load_rom`. -/
theorem loadRomCopiesTheImage : Obligations.LoadRomCopiesTheImage := by
  unfold Obligations.LoadRomCopiesTheImage
  intro s u image hm h
  rw [step_of_issues h, applyEvent_loadRom]
  obtain ⟨schedule, moves, rfl⟩ := issues_state h
  obtain ⟨hopen, hlen, he⟩ | ⟨hopen, hlen, he⟩ | ⟨hopen, he⟩ := loadRom_cases image
    { s with schedule := schedule, moves := moves }
  · refine ⟨fun _ _ => ⟨_, he, ?_⟩, fun _ hlong => by omega, fun hclosed => ?_⟩
    · obtain ⟨hin, hout⟩ := read_writeMany_block (a := 0x200) (bs := image) hm (by omega)
      exact ⟨hin, hout, rfl⟩
    · exact nomatch hopen.symm.trans hclosed
  · refine ⟨fun _ hshort => by omega, fun _ _ => ?_, fun hclosed => ?_⟩
    · rw [he]
      exact ⟨fun hstop => raise_stop hstop, fun hgo => raise_goOn hgo nofun⟩
    · exact nomatch hopen.symm.trans hclosed
  · exact ⟨fun ho => (nomatch hopen.symm.trans ho), fun ho => (nomatch hopen.symm.trans ho), fun _ => he⟩

/-! ## A `WaitKey` in progress (R192, R193, R270) -/

theorem step_of_answers {s u : State} {a : KeyAnswer} {x : RegIndex} (hw : s.waiting = some x) (h : Answers s a u) :
    step s = answerKeyWait x a u := by
  rw [step_waiting hw]
  obtain ⟨rest, ha, rfl⟩ | ⟨hnil, ha, rfl⟩ := h
  · exact continueKeyWait_list ha
  · exact continueKeyWait_free hnil ha

theorem answers_state {s u : State} {a : KeyAnswer} (h : Answers s a u) :
    ∃ answers asks, u = { s with keyAnswers := answers, asks := asks } := by
  obtain ⟨rest, -, rfl⟩ | ⟨-, -, rfl⟩ := h
  · exact ⟨rest, s.asks, rfl⟩
  · exact ⟨s.keyAnswers, s.asks + 1, rfl⟩

theorem keyCode_toNat (c : Fin 16) : (BitVec.ofNat 8 c.val).toNat = c.val := by
  rw [BitVec.toNat_ofNat]
  omega

/-- Settles O15: the provider is silent, gives a code or fails. -/
theorem waitKeyInProgressBlocks : Obligations.WaitKeyInProgressBlocks := by
  unfold Obligations.WaitKeyInProgressBlocks
  refine fun s x hw => ⟨fun hnil hsilent => ?silent, fun c u h => ?code, fun m u h => ?failure⟩
  case silent => rw [step_waiting hw, continueKeyWait_silent hnil hsilent]
  case code =>
    refine ⟨_, (step_of_answers hw h).trans (answerKeyWait_code x c u), ?_⟩
    obtain ⟨answers, asks, rfl⟩ := answers_state h
    rw [State.reg_setReg_self, keyCode_toNat]
    exact ⟨rfl, fun r hr => State.reg_setReg_ne _ _ hr, rfl⟩
  case failure =>
    rw [step_of_answers hw h, answerKeyWait_failure]
    obtain ⟨answers, asks, rfl⟩ := answers_state h
    exact ⟨fun hstop => raise_stop hstop, fun hgo => raise_goOn hgo nofun⟩

/-! ## Halted is terminal (R25, R241) -/

/-- What an event may change of a halted machine: the host's side, the timers and the key latch, and memory while
`load_rom` is open. -/
def HaltedChange (s t : State) : Prop :=
  t = { s with
    dt := t.dt, st := t.st, key := t.key, mem := t.mem, schedule := t.schedule, moves := t.moves
    romOpen := t.romOpen, returned := t.returned } ∧
  (s.romOpen = false → t.mem = s.mem)

theorem applyEvent_of_halted {e : HostEvent} {s t : State} (hp : s.power = .halted) (h : applyEvent e s = .next t) :
    HaltedChange s t := by
  cases e with
  | step =>
    rw [applyEvent_step, coreStep_halted (by exact hp)] at h
    cases h
    exact ⟨rfl, fun _ => rfl⟩
  | tick | keyPressed | keyReleased =>
    cases h
    exact ⟨rfl, fun _ => rfl⟩
  | loadRom image =>
    rw [applyEvent_loadRom] at h
    obtain ⟨hopen, -, he⟩ | ⟨-, -, he⟩ | ⟨-, he⟩ := loadRom_cases image s <;> rw [he] at h
    · cases h
      exact ⟨rfl, fun hclosed => nomatch hopen.symm.trans hclosed⟩
    · obtain ⟨-, -, rfl⟩ := raise_next h
      exact ⟨rfl, fun _ => rfl⟩
    · cases h

theorem step_of_halted_next {s t : State} (hw : s.waiting = none) (hp : s.power = .halted) (h : step s = .next t) :
    HaltedChange s t := by
  obtain ⟨e, u, hu⟩ := exists_issues hw
  rw [step_of_issues hu] at h
  obtain ⟨schedule, moves, rfl⟩ := issues_state hu
  exact applyEvent_of_halted (s := { s with schedule := schedule, moves := moves }) hp h

/-- Settles O11: a `WaitKey` is in progress only while Running, and no event touches more of a halted machine. -/
theorem haltedIsTerminal : Obligations.HaltedIsTerminal := by
  unfold Obligations.HaltedIsTerminal
  intro s t hinv hp h
  have hw : s.waiting = none := by
    by_contra hne
    exact nomatch (hinv.waiting hne).1.symm.trans hp
  obtain ⟨ht, hmem⟩ := step_of_halted_next hw hp h
  have hsame : s.romOpen = false → SameMemory s t := fun hclosed a => by rw [hmem hclosed]
  rw [ht]
  exact ⟨hp, rfl, rfl, rfl, rfl, rfl, rfl, rfl, rfl, hw, rfl, rfl, rfl, hsame⟩

theorem continueKeyWait_next {x : RegIndex} {s t : State} (h : continueKeyWait x s = .next t) :
    t = { s with
      v := t.v, waiting := t.waiting, keyAnswers := t.keyAnswers, asks := t.asks, returned := t.returned } ∧
    (t.waiting = none ∨ t.waiting = s.waiting) := by
  obtain he | ⟨a, answers, n, he⟩ := continueKeyWait_cases x s <;> rw [he] at h
  · cases h
    exact ⟨rfl, .inr rfl⟩
  · rw [answerKeyWait_next h]
    exact ⟨rfl, .inl rfl⟩

/-- A `WaitKey` in progress or not, a machine step of a halted machine leaves it halted. -/
theorem step_keeps_halted {s t : State} (hp : s.power = .halted) (h : step s = .next t) : t.power = .halted := by
  cases hw : s.waiting with
  | some x =>
    rw [step_waiting hw] at h
    rw [(continueKeyWait_next h).1]
    exact hp
  | none =>
    rw [(step_of_halted_next hw hp h).1]
    exact hp

theorem after_keeps_halted {k : Nat} {s u : State} (hp : s.power = .halted) (h : After k s u) : u.power = .halted := by
  induction k generalizing s with
  | zero => exact h ▸ hp
  | succ k ih =>
    obtain ⟨t, ht, hu⟩ := h
    exact ih (step_keeps_halted hp ht) hu

/-- Settles O28: `Exit` halts, every step keeps the machine halted, and a core `step` then does nothing. -/
theorem exitHaltsForGood : Obligations.ExitHaltsForGood := by
  unfold Obligations.ExitHaltsForGood
  refine fun s => ⟨{ s with power := .halted }, rfl, rfl, rfl, fun _ => rfl, fun _ => rfl, fun k u h => ?_⟩
  have hu : u.power = .halted := after_keeps_halted rfl h
  exact ⟨hu, fun u' hstep => step_of_halted hstep hu⟩

/-! ## The invariant (R12–R15, R241) -/

/-- The invariant looks at seven fields. -/
theorem inv_of_same {s t : State} (h : s.Inv) (hmem : t.mem = s.mem) (hpc : t.pc = s.pc) (hi : t.i = s.i)
    (hsp : t.sp = s.sp) (hstack : t.stack = s.stack) (hpower : t.power = s.power)
    (hw : t.waiting = none ∨ t.waiting = s.waiting) : t.Inv := by
  refine ⟨hmem ▸ h.memory, hpc ▸ h.pc, hi ▸ h.index, hsp ▸ h.sp, hstack ▸ h.stack, fun hne => ?_⟩
  rw [hpower, hpc]
  exact h.waiting (hw.resolve_left hne ▸ hne)

/-- Settles O17: every bound, at the values of reset. -/
theorem resetSatisfiesInvariant : Obligations.ResetSatisfiesInvariant :=
  ⟨State.reset_mem_wf, by decide, by decide, by decide, fun k => by simp [State.reset], fun h => absurd rfl h⟩

theorem storeBlock_keeps_wf {bs : List Byte} {s t : State} (hm : s.mem.wf = true) (h : storeBlock bs s = .next t) :
    t.mem.wf = true := by
  obtain ⟨hb, he⟩ | ⟨-, he⟩ := storeBlock_cases bs s <;> rw [he] at h
  · cases h
    exact Memory.wf_writeMany hm (Nat.le_of_lt hb)
  · obtain ⟨-, -, rfl⟩ := raise_next h
    exact hm

theorem exec_keeps_wf {i : Instr} {s t : State} (hm : s.mem.wf = true) (h : exec i s = .next t) :
    t.mem.wf = true := by
  obtain ⟨-, -, -, -, -, -, -, -, -, -, -, -, hmem, -⟩ := onlyListedInstructionsWriteEachState i s t h
  by_cases hsame : t.mem = s.mem
  · exact hsame ▸ hm
  · obtain ⟨x, rfl⟩ | ⟨x, rfl⟩ := hmem hsame <;> exact storeBlock_keeps_wf hm h

theorem exec_index_le {i : Instr} {s t : State} (hi : s.i.toNat ≤ 0xFFF) (h : exec i s = .next t) :
    t.i.toNat ≤ 0xFFF := by
  obtain ⟨-, hindex, -⟩ := onlyListedInstructionsWriteEachState i s t h
  by_cases hsame : t.i = s.i
  · exact hsame ▸ hi
  · obtain ⟨addr, rfl⟩ | ⟨x, rfl⟩ | ⟨x, rfl⟩ := hindex hsame
    · cases h
      rw [State.setI_i, zextAddr_toNat]
      omega
    · cases h
      rw [State.setI_i, indexPlus_toNat]
      omega
    · obtain ⟨hx, he⟩ | ⟨-, he⟩ := execLoadAddrDigit_cases x s <;> rw [exec, he] at h
      · cases h
        rw [State.setI_i, BitVec.toNat_ofNat]
        exact (Nat.mod_le _ _).trans (by omega)
      · obtain ⟨-, -, rfl⟩ := raise_next h
        exact hi

/-- `Call` pushes a `PC` that a run can have, below the sixteenth slot (R17). -/
theorem exec_call_bounds {addr : Addr12} {s t : State} (hs : s.Inv) (hpc : s.pc.toNat ≤ 0x1000)
    (h : exec (.call addr) s = .next t) :
    t.pc.toNat ≤ 0x1002 ∧ t.sp.toNat ≤ 16 ∧ ∀ k : Fin 16, t.stack[k.val].toNat ≤ 0x1000 := by
  obtain ⟨hsp, he⟩ | ⟨-, he⟩ | ⟨-, he⟩ := execCall_cases addr s <;> rw [exec, he] at h
  · cases h
    refine ⟨?_, ?_, fun k => ?_⟩
    · rw [zextAddr_toNat]
      omega
    · bv_omega
    · simp only [Vector.getElem_set]
      split
      · exact hpc
      · exact hs.stack k
  all_goals
    obtain ⟨-, -, rfl⟩ := raise_next h
    exact ⟨hs.pc, hs.sp, hs.stack⟩

/-- `Ret` pops a return address (R18). -/
theorem exec_ret_bounds {s t : State} (hs : s.Inv) (h : exec .ret s = .next t) :
    t.pc.toNat ≤ 0x1002 ∧ t.sp.toNat ≤ 16 := by
  obtain ⟨-, he⟩ | ⟨hlt, hne, he⟩ | ⟨-, he⟩ := execRet_cases s <;> rw [exec, he] at h
  case inr.inl =>
    cases h
    have hslot := hs.stack ⟨s.sp.toNat - 1, hlt⟩
    constructor
    · exact hslot.trans (by decide)
    · bv_omega
  all_goals
    obtain ⟨-, -, rfl⟩ := raise_next h
    exact ⟨hs.pc, hs.sp⟩

theorem skipIf_pc_le {c : Bool} {s t : State} (hpc : s.pc.toNat ≤ 0x1000) (h : skipIf c s = .next t) :
    t.pc.toNat ≤ 0x1002 := by
  rw [skipIf_eq] at h
  cases h
  cases c <;> simp <;> omega

theorem keySkips_pc_le {x : RegIndex} {s t : State} (hpc : s.pc.toNat ≤ 0x1000)
    (h : exec (.skipKey x) s = .next t ∨ exec (.skipNotKey x) s = .next t) : t.pc.toNat ≤ 0x1002 := by
  cases hkey : keyPressed? s (s.reg x) with
  | some pressed =>
    obtain ⟨hskip, hskipNot⟩ := exec_keySkips_of_key hkey
    rw [hskip, hskipNot] at h
    exact h.elim (skipIf_pc_le hpc) (skipIf_pc_le hpc)
  | none =>
    obtain ⟨hskip, hskipNot⟩ := exec_keySkips_of_no_key hkey
    rw [hskip, hskipNot, raise_unspecified] at h
    exact nomatch h

theorem exec_pc_le {i : Instr} {s t : State} (hs : s.Inv) (hpc : s.pc.toNat ≤ 0x1000) (h : exec i s = .next t) :
    t.pc.toNat ≤ 0x1002 := by
  obtain ⟨-, -, -, -, -, -, -, -, -, -, -, -, -, hwriters⟩ := onlyListedInstructionsWriteEachState i s t h
  by_cases hsame : t.pc = s.pc
  · exact hsame ▸ hs.pc
  obtain ⟨addr, rfl⟩ | ⟨addr, rfl⟩ | ⟨addr, rfl⟩ | ⟨addr, rfl⟩ | rfl | ⟨x, n, rfl⟩ | ⟨x, n, rfl⟩ | ⟨x, y, rfl⟩ |
    ⟨x, y, rfl⟩ | ⟨x, rfl⟩ | ⟨x, rfl⟩ := hwriters hsame
  case inl | inr.inl =>
    cases h
    rw [State.jumpTo_pc, zextAddr_toNat]
    omega
  case inr.inr.inl =>
    cases h
    rw [State.jumpTo_pc, indexedTarget_toNat]
    omega
  case inr.inr.inr.inl => exact (exec_call_bounds hs hpc h).1
  case inr.inr.inr.inr.inl => exact (exec_ret_bounds hs h).1
  case inr.inr.inr.inr.inr.inr.inr.inr.inr.inl => exact keySkips_pc_le hpc (.inl h)
  case inr.inr.inr.inr.inr.inr.inr.inr.inr.inr => exact keySkips_pc_le hpc (.inr h)
  all_goals exact skipIf_pc_le hpc h

theorem exec_sp_le {i : Instr} {s t : State} (hs : s.Inv) (hpc : s.pc.toNat ≤ 0x1000) (h : exec i s = .next t) :
    t.sp.toNat ≤ 16 := by
  obtain ⟨-, -, hsp, -⟩ := onlyListedInstructionsWriteEachState i s t h
  by_cases hsame : t.sp = s.sp
  · exact hsame ▸ hs.sp
  · obtain ⟨addr, rfl⟩ | rfl := hsp hsame
    · exact (exec_call_bounds hs hpc h).2.1
    · exact (exec_ret_bounds hs h).2

theorem exec_stack_le {i : Instr} {s t : State} (hs : s.Inv) (hpc : s.pc.toNat ≤ 0x1000) (h : exec i s = .next t)
    (k : Fin 16) : t.stack[k.val].toNat ≤ 0x1000 := by
  obtain ⟨-, -, -, hstack, -⟩ := onlyListedInstructionsWriteEachState i s t h
  by_cases hsame : t.stack = s.stack
  · exact hsame ▸ hs.stack k
  · obtain ⟨addr, rfl⟩ := hstack hsame
    exact (exec_call_bounds hs hpc h).2.2 k

/-- `WaitKey` alone starts a wait, and it neither halts nor jumps. -/
theorem exec_waiting {i : Instr} {s t : State} (hp : s.power = .running) (hpc : s.pc.toNat ≤ 0x1000)
    (hw : s.waiting = none) (h : exec i s = .next t) (hne : t.waiting ≠ none) :
    t.power = .running ∧ t.pc.toNat ≤ 0x1000 := by
  obtain ⟨-, -, -, -, -, -, -, -, -, -, hpower, hwait, -, hjump⟩ := onlyListedInstructionsWriteEachState i s t h
  obtain ⟨x, rfl⟩ := hwait (hw ▸ hne)
  have hsame : t.power = s.power := by simpa using hpower
  have hpcs : t.pc = s.pc := by simpa using hjump
  exact ⟨hsame.trans hp, hpcs ▸ hpc⟩

/-- Every instruction keeps the invariant, from a state in which the sequencer may execute it. -/
theorem exec_keeps_inv {i : Instr} {s t : State} (hs : s.Inv) (hp : s.power = .running) (hpc : s.pc.toNat ≤ 0x1000)
    (hw : s.waiting = none) (h : exec i s = .next t) : t.Inv where
  memory := exec_keeps_wf hs.memory h
  pc := exec_pc_le hs hpc h
  index := exec_index_le hs.index h
  sp := exec_sp_le hs hpc h
  stack := exec_stack_le hs hpc h
  waiting := exec_waiting hp hpc hw h

theorem coreStep_keeps_inv {s t : State} (hs : s.Inv) (hw : s.waiting = none) (h : coreStep s = .next t) : t.Inv := by
  obtain ⟨-, he⟩ | ⟨-, he⟩ | ⟨i, hp, hpc, -, he⟩ := coreStep_cases s <;> rw [he] at h
  · cases h
    exact hs
  · obtain ⟨-, -, rfl⟩ := raise_next h
    exact inv_of_same hs rfl rfl rfl rfl rfl rfl (.inr rfl)
  · have hnext : s.advance.pc.toNat ≤ 0x1000 := by
      rw [State.advance_pc]
      bv_omega
    have hinv : s.advance.Inv :=
      ⟨hs.memory, hnext.trans (by decide), hs.index, hs.sp, hs.stack, fun hne => absurd hw hne⟩
    exact exec_keeps_inv hinv hp hnext hw h

theorem loadRom_keeps_inv {image : List Byte} {s t : State} (hs : s.Inv) (h : loadRom image s = .next t) : t.Inv := by
  obtain ⟨-, hlen, he⟩ | ⟨-, -, he⟩ | ⟨-, he⟩ := loadRom_cases image s <;> rw [he] at h
  · cases h
    have hfits : 0x200 + image.length ≤ Config.memSize := by
      unfold Config.memSize
      omega
    exact ⟨Memory.wf_writeMany hs.memory hfits, hs.pc, hs.index, hs.sp, hs.stack, hs.waiting⟩
  · obtain ⟨-, -, rfl⟩ := raise_next h
    exact inv_of_same hs rfl rfl rfl rfl rfl rfl (.inr rfl)
  · cases h

theorem applyEvent_keeps_inv {e : HostEvent} {s t : State} (hs : s.Inv) (hw : s.waiting = none)
    (h : applyEvent e s = .next t) : t.Inv := by
  cases e with
  | step =>
    have hbegin : s.beginStep.Inv := inv_of_same hs rfl rfl rfl rfl rfl rfl (.inr rfl)
    exact coreStep_keeps_inv hbegin hw h
  | tick | keyPressed | keyReleased =>
    cases h
    exact inv_of_same hs rfl rfl rfl rfl rfl rfl (.inr rfl)
  | loadRom image => exact loadRom_keeps_inv hs h

/-- Settles O18: by the two things a machine step can be, a `WaitKey` that goes on and the host's next event. -/
theorem everyStepKeepsInvariant : Obligations.EveryStepKeepsInvariant := by
  unfold Obligations.EveryStepKeepsInvariant
  intro s t hs h
  cases hw : s.waiting with
  | some x =>
    rw [step_waiting hw] at h
    obtain ⟨ht, hwait⟩ := continueKeyWait_next h
    rw [ht]
    exact inv_of_same hs rfl rfl rfl rfl rfl rfl hwait
  | none =>
    obtain ⟨e, u, hu⟩ := exists_issues hw
    rw [step_of_issues hu] at h
    obtain ⟨schedule, moves, rfl⟩ := issues_state hu
    have hu : State.Inv { s with schedule := schedule, moves := moves } :=
      inv_of_same hs rfl rfl rfl rfl rfl rfl (.inr rfl)
    exact applyEvent_keeps_inv hu hw h

end Sys2Proof.Proofs
end

section
/-! Memory and its blocks (20_memory.md R40–R49; 45_memory_ops.md R200–R207), the RPL pair and what reset leaves. -/

namespace Sys2Proof.Proofs

open Sys2Proof Sys2Proof.Machine Sys2Proof.Claims

/-! ## Canonical memories and the ports -/

/-- In a canonical memory the first listed address does not read as at reset. -/
theorem read_head_ne_reset {lo k : Nat} {b : Byte} {m : Memory} (h : Memory.wfFrom lo ((k, b) :: m) = true) :
    Memory.read ((k, b) :: m) k ≠ Config.resetByte k := by
  obtain ⟨-, -, hb, -⟩ := Memory.wfFrom_cons.1 h
  simpa [Memory.read] using hb

/-- Two canonical memories that read alike begin at the same address: the later one reads as at reset at the earlier
one's first address. -/
theorem head_addresses_eq {lo k k' : Nat} {b b' : Byte} {m m' : Memory}
    (h : Memory.wfFrom lo ((k, b) :: m) = true) (h' : Memory.wfFrom lo ((k', b') :: m') = true)
    (hread : ∀ a, Memory.read ((k, b) :: m) a = Memory.read ((k', b') :: m') a) : k = k' := by
  obtain ⟨-, hk, hb, hm⟩ := Memory.wfFrom_cons.1 h
  obtain ⟨-, hk', hb', hm'⟩ := Memory.wfFrom_cons.1 h'
  rcases Nat.lt_trichotomy k k' with hlt | heq | hlt
  · have hbelow := Memory.read_below (Memory.wfFrom_cons.2 ⟨Nat.le_refl k', hk', hb', hm'⟩) hlt
    exact absurd ((hread k).trans hbelow) (read_head_ne_reset h)
  · exact heq
  · have hbelow := Memory.read_below (Memory.wfFrom_cons.2 ⟨Nat.le_refl k, hk, hb, hm⟩) hlt
    exact absurd ((hread k').symm.trans hbelow) (read_head_ne_reset h')

theorem eq_of_read_eq {lo : Nat} {m m' : Memory} (h : Memory.wfFrom lo m = true) (h' : Memory.wfFrom lo m' = true)
    (hread : ∀ a, m.read a = m'.read a) : m = m' := by
  induction m generalizing lo m' with
  | nil =>
    cases m' with
    | nil => rfl
    | cons p m' => exact absurd (hread p.1).symm (read_head_ne_reset h')
  | cons p m ih =>
    cases m' with
    | nil => exact absurd (hread p.1) (read_head_ne_reset h)
    | cons p' m' =>
      obtain ⟨k, b⟩ := p
      obtain ⟨k', b'⟩ := p'
      obtain rfl := head_addresses_eq h h' hread
      obtain ⟨-, -, -, hm⟩ := Memory.wfFrom_cons.1 h
      obtain ⟨-, -, -, hm'⟩ := Memory.wfFrom_cons.1 h'
      have hb : b = b' := by simpa [Memory.read] using hread k
      have htail : m = m' := ih hm hm' fun a => by
        by_cases ha : k = a
        · rw [Memory.read_below hm (by omega), Memory.read_below hm' (by omega)]
        · simpa [Memory.read, ha] using hread a
      rw [hb, htail]

/-- Settles O20: address by address from the front. -/
theorem canonicalMemoriesThatReadAlikeAreEqual : Obligations.CanonicalMemoriesThatReadAlikeAreEqual := by
  unfold Obligations.CanonicalMemoriesThatReadAlikeAreEqual
  exact fun m m' => eq_of_read_eq

theorem memReadByte_cases (m : Memory) (addr : Nat) :
    (addr < 4096 ∧ memReadByte m addr = .ok (m.read addr)) ∨
    (4096 ≤ addr ∧ memReadByte m addr = .error .addressOutOfRange) := by
  obtain h | h := Nat.lt_or_ge addr 4096
  · exact .inl ⟨h, if_neg (Nat.not_le.2 h)⟩
  · exact .inr ⟨h, if_pos h⟩

theorem memWriteByte_cases (m : Memory) (addr : Nat) (b : Byte) :
    (addr < 4096 ∧ memWriteByte m addr b = .ok (m.write addr b)) ∨
    (4096 ≤ addr ∧ memWriteByte m addr b = .error .addressOutOfRange) := by
  obtain h | h := Nat.lt_or_ge addr 4096
  · exact .inl ⟨h, if_neg (Nat.not_le.2 h)⟩
  · exact .inr ⟨h, if_pos h⟩

theorem readMany_getD {m : Memory} {addr n k : Nat} (hk : k < n) :
    (m.readMany addr n).getD k 0 = m.read (addr + k) := by
  have hlen : k < (m.readMany addr n).length := by rwa [Memory.readMany_length]
  rw [List.getD_eq_getElem _ _ hlen, Memory.readMany_getElem]

/-- Settles O21: what each port does on the two sides of its bound. -/
theorem memoryPortsCheckTheirRange : Obligations.MemoryPortsCheckTheirRange := by
  unfold Obligations.MemoryPortsCheckTheirRange
  refine fun m addr n b hm => ⟨fun h => ?inside, fun h => ?outside, fun h => ?block, fun h => ?blockOutside⟩
  case inside =>
    obtain ⟨-, hread⟩ | ⟨hge, -⟩ := memReadByte_cases m addr
    · obtain ⟨-, hwrite⟩ | ⟨hge, -⟩ := memWriteByte_cases m addr b
      · refine ⟨hread, _, hwrite, ?_, fun a ha => ?_, memWriteByte_keeps_wf hm hwrite⟩
        · rw [Memory.read_write hm, if_pos rfl]
        · rw [Memory.read_write hm, if_neg ha]
      · omega
    · omega
  case outside =>
    obtain ⟨hlt, -⟩ | ⟨-, hread⟩ := memReadByte_cases m addr
    · omega
    · obtain ⟨hlt, -⟩ | ⟨-, hwrite⟩ := memWriteByte_cases m addr b
      · omega
      · exact ⟨hread, hwrite⟩
  case block =>
    obtain ⟨-, he⟩ | ⟨hge, -⟩ := memRead_cases m addr n
    · exact ⟨_, he, Memory.readMany_length m addr n, fun k hk => readMany_getD hk⟩
    · omega
  case blockOutside =>
    obtain ⟨hlt, -⟩ | ⟨-, he⟩ := memRead_cases m addr n
    · omega
    · exact he

/-! ## Reset (R260) -/

/-- Settles O16: field by field. -/
theorem resetLeavesDocumentedValues : Obligations.ResetLeavesDocumentedValues := by
  unfold Obligations.ResetLeavesDocumentedValues
  refine ⟨State.reset_reg, rfl, rfl, rfl, fun k => ?_, fun k => ?_, rfl, rfl, fun k => ?_, fun row col => ?_, rfl, rfl,
    fun a ha => resetByte_of_ge ha⟩
  all_goals simp [State.reset, Framebuffer.cell]

/-! ## Blocks of memory (R200–R203) -/

/-- A block store inside the bound: the block at `I`, nothing else (R45). -/
theorem storeBlock_stores {bs : List Byte} {s : State} (hm : s.mem.wf = true) (hb : s.i.toNat + bs.length < 4096) :
    ∃ t, storeBlock bs s = .next t ∧ StoredAtIndex bs s t := by
  obtain ⟨-, he⟩ | ⟨hge, -⟩ := storeBlock_cases bs s
  · obtain ⟨hin, hout⟩ := read_writeMany_block hm (Nat.le_of_lt hb)
    exact ⟨_, he, hin, hout, rfl, fun _ => rfl⟩
  · omega

/-- Settles O50: the block is the three digits. -/
theorem memStoreBcdStoresThreeDigits : Obligations.MemStoreBcdStoresThreeDigits := by
  unfold Obligations.MemStoreBcdStoresThreeDigits
  exact fun s x hm hb => storeBlock_stores (bs := bcdDigits (s.reg x)) hm hb

theorem firstRegs_getD {s : State} {n : Nat} {k : RegIndex} (hk : k.val < n) :
    (firstRegs s n).getD k.val 0 = s.reg k := by
  have hlen : k.val < (firstRegs s n).length := by
    rw [firstRegs_length]
    omega
  rw [List.getD_eq_getElem _ _ hlen, firstRegs_getElem s n k.val hlen k.isLt]

/-- Settles O51: the block is the registers through `V[x]`. -/
theorem memStoreRegsStoresThroughVx : Obligations.MemStoreRegsStoresThroughVx := by
  unfold Obligations.MemStoreRegsStoresThroughVx
  intro s x hm hb
  have hlen := firstRegs_length_succ s x
  obtain ⟨t, he, hin, hout, ht, hregs⟩ := storeBlock_stores (bs := firstRegs s (x.val + 1)) hm (by omega)
  refine ⟨t, he, fun k hk => ?_, fun a ha => hout a (by omega), ht, hregs⟩
  rw [hin k.val (by omega), firstRegs_getD (Nat.lt_succ_of_le hk)]

/-- Settles O52: the registers take the bytes of the block. -/
theorem memLoadRegsLoadsThroughVx : Obligations.MemLoadRegsLoadsThroughVx := by
  unfold Obligations.MemLoadRegsLoadsThroughVx
  intro s x hb
  obtain ⟨-, he⟩ | ⟨hge, -⟩ := execMemLoadRegs_cases x s
  · refine ⟨_, he, fun k hk => ?_, onlyRegs_congr (onlyRegs_putBlock s _) fun r => ?_⟩
    · have hlt : k.val < (s.mem.readMany s.i.toNat (x.val + 1)).length := by
        rw [Memory.readMany_length]
        omega
      rw [reg_putBlock, dif_pos hlt, Memory.readMany_getElem]
    · rw [Memory.readMany_length, Nat.lt_succ_iff]
  · omega

/-- Settles O54: the load reads the bytes the store wrote. -/
theorem storedRegistersLoadBack : Obligations.StoredRegistersLoadBack := by
  unfold Obligations.StoredRegistersLoadBack
  intro s t u x hm hb h humem hui
  obtain ⟨t', he, hstored, -, ht, -⟩ := memStoreRegsStoresThroughVx s x hm hb
  obtain rfl : t' = t := by
    rw [he] at h
    cases h
    rfl
  have hti : t'.i = s.i := by rw [ht]
  obtain ⟨z, hz, hloaded, -⟩ := memLoadRegsLoadsThroughVx u x (by rw [hui, hti]; exact hb)
  refine ⟨z, hz, fun k hk => ?_⟩
  rw [hloaded k hk, humem, hui, hti, hstored k hk]

/-- Settles O53: a block that reaches the bound is the error of its instruction. -/
theorem blocksPastTheBoundFail : Obligations.BlocksPastTheBoundFail := by
  unfold Obligations.BlocksPastTheBoundFail
  intro s x y nib
  have hblock : ∀ n, 4096 ≤ s.i.toNat + n → blockFailure s n = some .addressOutOfRange := fun n h =>
    if_neg (Nat.not_lt.2 h)
  refine ⟨fun h => raises_of_failure (hblock 3 h) nofun nofun,
    fun h => raises_of_failure (hblock (x.val + 1) h) nofun nofun,
    fun h => raises_of_failure (hblock (x.val + 1) h) nofun nofun, fun hne h => ?small, fun h0 h => ?large⟩
  case small =>
    have hnib : nib ≠ 0 := fun e => hne (by rw [e]; rfl)
    have hsize : spriteSize nib = nib.toNat := if_neg hnib
    exact raises_of_failure (hblock (spriteSize nib) (hsize ▸ h)) nofun nofun
  case large =>
    have hsize : spriteSize nib = 32 := if_pos (BitVec.eq_of_toNat_eq h0)
    exact raises_of_failure (hblock (spriteSize nib) (hsize ▸ h)) nofun nofun

/-! ## The RPL pair (R205–R207) -/

/-- `RplStoreRegs` inside the count: `V[0]` to `V[x-1]` (R206). -/
theorem exec_rplStoreRegs {s : State} {x : RegIndex} (hx : x.val ≤ 8) :
    exec (.rplStoreRegs x) s = .next { s with rpl := putBlock s.rpl 0 (firstRegs s x.val) } := by
  obtain ⟨-, he⟩ | ⟨hgt, -⟩ := execRplStoreRegs_cases x s
  · exact he
  · omega

theorem rpl_putBlock_firstRegs (s : State) (x : RegIndex) (k : Fin 8) :
    (putBlock s.rpl 0 (firstRegs s x.val))[k.val] =
      if k.val < x.val then s.reg (k.castLE (Nat.le_add_left 8 8)) else s.rpl[k.val] := by
  rw [putBlock_getElem]
  have hlen : k.val - 0 < (firstRegs s x.val).length ↔ k.val < x.val := by
    rw [firstRegs_length]
    omega
  by_cases h : k.val < x.val
  · rw [dif_pos ⟨Nat.zero_le _, hlen.2 h⟩, if_pos h]
    exact firstRegs_getElem s x.val k.val _ (by omega)
  · rw [dif_neg (fun hk => h (hlen.1 hk.2)), if_neg h]

/-- `RplLoadRegs` inside the count: `RPL[0]` to `RPL[x-1]`, and no other register (R207). -/
theorem exec_rplLoadRegs {s : State} {x : RegIndex} (hx : x.val ≤ 8) :
    ∃ t, exec (.rplLoadRegs x) s = .next t ∧
      (∀ k : Fin 8, k.val < x.val → t.reg (k.castLE (Nat.le_add_left 8 8)) = s.rpl[k.val]) ∧
      OnlyRegs (fun r => r.val < x.val) s t := by
  obtain ⟨-, he⟩ | ⟨hgt, -⟩ := execRplLoadRegs_cases x s
  · have hlen : (s.rpl.toList.take x.val).length = x.val := by simp [hx]
    refine ⟨_, he, fun k hk => ?_, onlyRegs_congr (onlyRegs_putBlock s _) fun r => by rw [hlen]⟩
    rw [reg_putBlock, dif_pos (by rw [hlen]; exact hk)]
    simp
  · omega

/-- Settles O55: each of the pair on the two sides of the count. -/
theorem rplPairMovesXRegisters : Obligations.RplPairMovesXRegisters := by
  unfold Obligations.RplPairMovesXRegisters
  intro s x
  refine ⟨fun hx => ⟨⟨_, exec_rplStoreRegs hx, rpl_putBlock_firstRegs s x, rfl, fun _ => rfl, fun _ => rfl⟩,
    exec_rplLoadRegs hx⟩, fun hx => ?_⟩
  have hf : failure (.rplStoreRegs x) s = some (.registerOutOfRange x) := if_neg (Nat.not_le.2 hx)
  exact ⟨raises_of_failure hf nofun nofun, raises_of_failure (i := .rplLoadRegs x) hf nofun nofun⟩

/-- Settles O56: the load reads the places the store wrote. -/
theorem rplRoundTripRestoresRegisters : Obligations.RplRoundTripRestoresRegisters := by
  unfold Obligations.RplRoundTripRestoresRegisters
  intro s t u x hx h hrpl
  rw [exec_rplStoreRegs hx] at h
  cases h
  obtain ⟨z, hz, hloaded, -⟩ := exec_rplLoadRegs (s := u) hx
  refine ⟨z, hz, fun k hk => ?_⟩
  have hk8 : k.val < 8 := by omega
  have hstored := rpl_putBlock_firstRegs s x ⟨k.val, hk8⟩
  rw [if_pos hk] at hstored
  have hback := hloaded ⟨k.val, hk8⟩ hk
  simp only [hrpl] at hback
  exact hback.trans hstored

end Sys2Proof.Proofs
end

section
/-! Control transfer and the keyboard (40_control_flow.md R100–R108; 44_keyboard.md R190–R193). -/

namespace Sys2Proof.Proofs

open Sys2Proof Sys2Proof.Machine Sys2Proof.Claims

/-! ## Jumps (R100–R102) -/

/-- Settles O22: both are one assignment to `PC`. -/
theorem sysAndJumpLoadPc : Obligations.SysAndJumpLoadPc := by
  unfold Obligations.SysAndJumpLoadPc
  intro s addr i hi
  have he : exec i s = .next (s.jumpTo (zextAddr addr)) := by
    obtain rfl | rfl := List.mem_pair.1 hi <;> rfl
  exact ⟨_, he, zextAddr_toNat addr, onlyPc_jumpTo s _⟩

/-- Settles O23: the target is reduced. -/
theorem jumpAddrPlusV0WrapsAtTheTopOfMemory : Obligations.JumpAddrPlusV0WrapsAtTheTopOfMemory := by
  unfold Obligations.JumpAddrPlusV0WrapsAtTheTopOfMemory
  exact fun s addr => ⟨_, rfl, indexedTarget_toNat addr (s.reg 0), onlyPc_jumpTo s _⟩

/-! ## The call stack (R103, R104) -/

theorem exec_call {s : State} (addr : Addr12) (hsp : s.sp.toNat < 16) : exec (.call addr) s =
    .next { s with stack := s.stack.set s.sp.toNat s.pc hsp, sp := s.sp + 1, pc := zextAddr addr } := by
  obtain ⟨_, he⟩ | ⟨hsp', -⟩ | ⟨hsp', -⟩ := execCall_cases addr s
  · exact he
  · omega
  · omega

theorem exec_ret {s : State} {k : Fin 16} (hk : s.sp.toNat = k.val + 1) :
    exec .ret s = .next { s with pc := s.stack[k.val], sp := s.sp - 1 } := by
  obtain ⟨hsp, -⟩ | ⟨_, -, he⟩ | ⟨hsp, -⟩ := execRet_cases s
  · omega
  · have hslot : s.sp.toNat - 1 = k.val := by omega
    simp only [hslot] at he
    exact he
  · omega

/-- Settles O24: the push below the sixteenth entry, and the error at it. -/
theorem callPushesReturnAddressOrOverflows : Obligations.CallPushesReturnAddressOrOverflows := by
  unfold Obligations.CallPushesReturnAddressOrOverflows
  refine fun s addr => ⟨fun hsp => ⟨_, exec_call addr hsp, zextAddr_toNat addr, ?_, fun k => ?_, fun _ => rfl, rfl,
    fun _ => rfl⟩, fun hsp => ?_⟩
  · bv_omega
  · simp only [Vector.getElem_set, eq_comm]
  · have hf : failure (.call addr) s = some .stackOverflow := (if_neg (by omega)).trans (if_pos hsp)
    exact raises_of_failure hf nofun nofun

/-- Settles O25: the pop of an entry, and the error with none. -/
theorem retPopsIntoPcOrUnderflows : Obligations.RetPopsIntoPcOrUnderflows := by
  unfold Obligations.RetPopsIntoPcOrUnderflows
  refine fun s => ⟨fun k hk => ⟨_, exec_ret hk, rfl, ?_, fun _ => rfl, rfl, fun _ => rfl⟩, fun hsp => ?_⟩
  · bv_omega
  · have hf : failure .ret s = some .stackUnderflow := if_pos hsp
    exact raises_of_failure hf nofun nofun

/-- Settles O26: the slot `Ret` reads is the one `Call` wrote. -/
theorem retReturnsAfterTheCall : Obligations.RetReturnsAfterTheCall := by
  unfold Obligations.RetReturnsAfterTheCall
  intro addr s t u hsp h husp hustack
  rw [exec_call addr hsp] at h
  cases h
  have hk : u.sp.toNat = (⟨s.sp.toNat, hsp⟩ : Fin 16).val + 1 := by
    rw [husp]
    bv_omega
  refine ⟨_, exec_ret hk, ?_, ?_, rfl⟩
  · simp only [hustack, Vector.getElem_set_self]
  · simp only [husp]
    bv_omega

/-! ## Skips (R105–R108, R190, R191) -/

/-- A skip whose test says whether a condition holds. -/
theorem skipIf_spec {c : Bool} {p : Prop} (hc : c = true ↔ p) (s : State) :
    ∃ t, skipIf c s = .next t ∧ OnlyPc s t ∧ (p → t.pc = s.pc + 2) ∧ (¬ p → t.pc = s.pc) := by
  refine ⟨_, skipIf_eq c s, ⟨rfl, fun _ => rfl, fun _ => rfl⟩, fun hp => ?_, fun hp => ?_⟩
  · exact if_pos (hc.2 hp)
  · exact if_neg (fun h => hp (hc.1 h))

/-- Settles O27: each skip tests its condition. -/
theorem skipsAdvancePcOnTheirCondition : Obligations.SkipsAdvancePcOnTheirCondition := by
  unfold Obligations.SkipsAdvancePcOnTheirCondition
  intro s x y imm
  have heq : ∀ b : Byte, ∃ t, skipIf (s.reg x == b) s = .next t ∧ OnlyPc s t ∧
      (s.reg x = b → t.pc = s.pc + 2) ∧ (s.reg x ≠ b → t.pc = s.pc) := fun b => skipIf_spec beq_iff_eq s
  have hne : ∀ b : Byte, ∃ t, skipIf (s.reg x != b) s = .next t ∧ OnlyPc s t ∧
      (s.reg x ≠ b → t.pc = s.pc + 2) ∧ (s.reg x = b → t.pc = s.pc) := fun b => by
    obtain ⟨t, ht, hpc, hskip, hstay⟩ := skipIf_spec (bne_iff_ne (a := s.reg x) (b := b)) s
    exact ⟨t, ht, hpc, hskip, fun h => hstay (not_not.2 h)⟩
  exact ⟨heq imm, hne imm, heq (s.reg y), hne (s.reg y)⟩

/-- Settles O48: the latch of the key, and the fault above 15. -/
theorem keySkipsTestTheLatch : Obligations.KeySkipsTestTheLatch := by
  unfold Obligations.KeySkipsTestTheLatch
  refine fun s x => ⟨fun k hk => ?_, fun hx => exec_keySkips_of_no_key (keyPressed?_none hx)⟩
  have hkey : keyPressed? s (s.reg x) = some s.key[k.val] := by
    rw [keyPressed?_some (by omega)]
    simp only [hk]
  obtain ⟨hskip, hskipNot⟩ := exec_keySkips_of_key hkey
  rw [hskip, hskipNot]
  obtain ⟨t, ht, htpc, hon, hoff⟩ := skipIf_spec (c := s.key[k.val]) (p := s.key[k.val] = true) Iff.rfl s
  obtain ⟨u, hu, hupc, hnot, hstay⟩ :=
    skipIf_spec (c := !s.key[k.val]) (p := s.key[k.val] = false) (by simp) s
  exact ⟨⟨t, ht, htpc, hon, fun h => hoff (by simp [h])⟩, ⟨u, hu, hupc, hnot, fun h => hstay (by simp [h])⟩⟩

/-! ## `WaitKey` (R192, R193) -/

/-- Settles O49: the head of the listed answers, or none. -/
theorem waitKeyTakesTheProvidersAnswer : Obligations.WaitKeyTakesTheProvidersAnswer := by
  unfold Obligations.WaitKeyTakesTheProvidersAnswer
  refine fun s x hw => ⟨fun c rest ha => ?code, fun m rest ha => ?failure, fun ha => keyWait_nil ha⟩
  case code =>
    refine ⟨_, keyWait_code ha, ?_, fun r hr => State.reg_setReg_ne _ _ hr, ?_, fun _ => rfl⟩
    · rw [State.reg_setReg_self, keyCode_toNat]
    · rw [← hw]
      rfl
  case failure =>
    have he : exec (.waitKey x) s = raise (.unknown m) { s with keyAnswers := rest, waiting := none } :=
      keyWait_failure ha
    rw [he, ← hw]
    exact ⟨fun hstop => raise_stop hstop, fun hgo => raise_goOn hgo nofun⟩

end Sys2Proof.Proofs
end

section
/-! Loads, arithmetic and logic (41_load_move.md R120–R127; 42_alu.md R140–R152). -/

namespace Sys2Proof.Proofs

open Sys2Proof Sys2Proof.Machine Sys2Proof.Claims

/-! ## Loads and moves -/

/-- Settles O30: one assignment to `I`. -/
theorem loadAddrSetsIndex : Obligations.LoadAddrSetsIndex := by
  unfold Obligations.LoadAddrSetsIndex
  exact fun s addr => ⟨_, rfl, zextAddr_toNat addr, onlyIndex_setI s _⟩

/-- Settles O31: a digit, or a value that is none. -/
theorem loadAddrDigitPointsAtTheGlyph : Obligations.LoadAddrDigitPointsAtTheGlyph := by
  unfold Obligations.LoadAddrDigitPointsAtTheGlyph
  refine fun s x => ⟨fun hx => ?_, fun hx => ?_⟩
  · obtain ⟨-, he⟩ | ⟨hgt, -⟩ := execLoadAddrDigit_cases x s
    · refine ⟨_, he, ?_, onlyIndex_setI s _⟩
      rw [State.setI_i, BitVec.toNat_ofNat]
      exact Nat.mod_eq_of_lt (by omega)
    · omega
  · have hf : failure (.loadAddrDigit x) s = some .invalidDigitSprite := if_neg (Nat.not_le.2 hx)
    exact raises_of_failure hf nofun nofun

/-- Settles O32: there is no other arm. -/
theorem loadAddrBigDigitAlwaysFails : Obligations.LoadAddrBigDigitAlwaysFails := by
  unfold Obligations.LoadAddrBigDigitAlwaysFails
  exact fun s x => raises_of_failure (i := .loadAddrBigDigit x) rfl nofun nofun

/-- An instruction that is one register write. -/
theorem writes_one_reg {i : Instr} {s : State} {x : RegIndex} {b : Byte} (h : exec i s = .next (s.setReg x b)) :
    ∃ t, exec i s = .next t ∧ t.reg x = b ∧ OnlyRegs (fun r => r = x) s t :=
  ⟨_, h, State.reg_setReg_self s x b, onlyRegs_setReg s x b⟩

/-- Settles O33: two register writes and the two timers. -/
theorem movesCopyTheirByte : Obligations.MovesCopyTheirByte := by
  unfold Obligations.MovesCopyTheirByte
  exact fun s x y => ⟨writes_one_reg rfl, writes_one_reg rfl, ⟨_, rfl, rfl, rfl, fun _ => rfl, fun _ => rfl⟩,
    ⟨_, rfl, rfl, rfl, fun _ => rfl, fun _ => rfl⟩⟩

/-! ## One result, no flag (R142, R143, R147–R149) -/

/-- Settles O34: the sum of two bytes as a byte. -/
theorem addImmWrapsWithoutFlag : Obligations.AddImmWrapsWithoutFlag := by
  unfold Obligations.AddImmWrapsWithoutFlag
  intro s x imm
  obtain ⟨t, he, hx, hframe⟩ := writes_one_reg (i := .addImm x imm) (s := s) rfl
  exact ⟨t, he, by rw [hx, BitVec.toNat_add], hframe⟩

/-- Settles O35: the sum reduced to the address space. -/
theorem addAddrRegWrapsAtTheAddressSpace : Obligations.AddAddrRegWrapsAtTheAddressSpace := by
  unfold Obligations.AddAddrRegWrapsAtTheAddressSpace
  exact fun s x => ⟨_, rfl, indexPlus_toNat s.i (s.reg x), onlyIndex_setI s _⟩

/-- Settles O36: the three operations bit by bit. -/
theorem logicCombinesBitByBit : Obligations.LogicCombinesBitByBit := by
  unfold Obligations.LogicCombinesBitByBit
  intro s x y
  obtain ⟨t, ht, htx, htframe⟩ := writes_one_reg (i := .or x y) (s := s) rfl
  obtain ⟨u, hu, hux, huframe⟩ := writes_one_reg (i := .and x y) (s := s) rfl
  obtain ⟨z, hz, hzx, hzframe⟩ := writes_one_reg (i := .xor x y) (s := s) rfl
  refine ⟨⟨t, ht, htframe, fun k => ?_⟩, ⟨u, hu, huframe, fun k => ?_⟩, ⟨z, hz, hzframe, fun k => ?_⟩⟩
  · rw [htx, BitVec.getLsbD_or]
  · rw [hux, BitVec.getLsbD_and]
  · rw [hzx, BitVec.getLsbD_xor]

/-! ## A result and a flag (R144–R146) -/

theorem flagByte_toNat (f : Bool) : (flagByte f).toNat = f.toNat := by cases f <;> rfl

/-- A result, then a flag that says whether a condition holds. -/
theorem resultThenFlag_spec {x : RegIndex} {result : Byte} {f : Bool} {p : Prop} (hf : f = true ↔ p) (s : State) :
    (x ≠ 15 → (resultThenFlag x result f s).reg x = result) ∧
    (p → ((resultThenFlag x result f s).reg 15).toNat = 1) ∧
    (¬ p → ((resultThenFlag x result f s).reg 15).toNat = 0) := by
  rw [resultThenFlag_vf, flagByte_toNat]
  refine ⟨fun hx => resultThenFlag_reg result f s hx, fun hp => ?_, fun hp => ?_⟩
  · rw [hf.2 hp, Bool.toNat_true]
  · rw [Bool.eq_false_iff.2 (fun h => hp (hf.1 h)), Bool.toNat_false]

/-- Settles O37: the sum, then the carry. -/
theorem addRegSumsAndCarries : Obligations.AddRegSumsAndCarries := by
  unfold Obligations.AddRegSumsAndCarries
  intro s x y
  obtain ⟨hx, hset, hclear⟩ := resultThenFlag_spec (x := x) (result := s.reg x + s.reg y)
    (f := carryOut (s.reg x) (s.reg y)) decide_eq_true_iff s
  refine ⟨_, rfl, fun hne => ?_, hset, fun h => hclear (Nat.not_lt.2 h), onlyRegs_resultThenFlag x _ _ s⟩
  rw [hx hne, BitVec.toNat_add]

/-- Either subtraction: the difference, then the strict test of minuend against subtrahend. -/
theorem subtraction_spec {i : Instr} {s : State} {x : RegIndex} {a b : Byte}
    (h : exec i s = .next (resultThenFlag x (a - b) (noBorrow a b) s)) :
    ∃ t, exec i s = .next t ∧ (x ≠ 15 → (t.reg x).toNat = (a.toNat + 256 - b.toNat) % 256) ∧
      (b.toNat < a.toNat → (t.reg 15).toNat = 1) ∧ (a.toNat ≤ b.toNat → (t.reg 15).toNat = 0) ∧
      OnlyRegs (fun r => r = x ∨ r = 15) s t := by
  obtain ⟨hx, hset, hclear⟩ := resultThenFlag_spec (x := x) (result := a - b) (f := noBorrow a b) decide_eq_true_iff s
  refine ⟨_, h, fun hne => ?_, hset, fun hle => hclear (Nat.not_lt.2 hle), onlyRegs_resultThenFlag x _ _ s⟩
  rw [hx hne]
  bv_omega

/-- Settles O38: the two subtractions, minuend and subtrahend exchanged. -/
theorem subtractionsBorrowStrictly : Obligations.SubtractionsBorrowStrictly := by
  unfold Obligations.SubtractionsBorrowStrictly
  exact fun s x y => ⟨subtraction_spec rfl, subtraction_spec rfl⟩

/-! ## Shifts (R150, R151) -/

theorem bitOutRight_toNat (a : Byte) : (bitOutRight a).toNat = a.toNat % 2 := by
  revert a
  decide

theorem bitOutLeft_toNat (a : Byte) : (bitOutLeft a).toNat = a.toNat / 128 := by
  revert a
  decide

/-- Settles O39: the bit shifted out goes to VF first, and with `x = 15` is shifted itself. -/
theorem shiftsMoveOnePlace : Obligations.ShiftsMoveOnePlace := by
  unfold Obligations.ShiftsMoveOnePlace
  refine fun s x => ⟨⟨_, rfl, onlyRegs_flagThenShift x _ _ s, fun hx => ⟨?_, ?_⟩, fun hx => ?_⟩,
    ⟨_, rfl, onlyRegs_flagThenShift x _ _ s, fun hx => ⟨?_, ?_⟩, fun hx => ?_⟩⟩
  · rw [flagThenShift_reg _ _ _ hx, BitVec.toNat_ushiftRight, Nat.shiftRight_one]
  · rw [flagThenShift_vf _ _ _ hx, flagByte_toNat, bitOutRight_toNat]
  · subst hx
    rw [flagThenShift_self, BitVec.toNat_ushiftRight, flagByte_toNat]
    cases bitOutRight (s.reg 15) <;> rfl
  · rw [flagThenShift_reg _ _ _ hx, BitVec.toNat_shiftLeft, Nat.shiftLeft_eq, pow_one]
  · rw [flagThenShift_vf _ _ _ hx, flagByte_toNat, bitOutLeft_toNat]
  · subst hx
    rw [flagThenShift_self, ← bitOutLeft_toNat]
    cases bitOutLeft (s.reg 15) <;> rfl

/-! ## `RandModImm` (R152) -/

/-- Settles O40: the remainder of the free byte. -/
theorem randModImmStaysWithinImm : Obligations.RandModImmStaysWithinImm := by
  unfold Obligations.RandModImmStaysWithinImm
  intro s x imm
  have hx : ((State.setReg { s with draws := s.draws + 1 } x (remainderImm (Config.randomByte s.draws) imm)).reg
      x).toNat = (Config.randomByte s.draws).toNat % (imm.toNat + 1) := by
    rw [State.reg_setReg_self, remainderImm_toNat]
  refine ⟨_, rfl, hx, ?_, fun r hr => State.reg_setReg_ne _ _ hr, rfl, fun _ => rfl⟩
  exact hx.trans_le (Nat.le_of_lt_succ (Nat.mod_lt _ (Nat.succ_pos _)))

end Sys2Proof.Proofs
end

section
/-! The display (43_display.md R160–R175): scrolls, the resolution flag, the snapshot, and `Draw`, whose blit XORs the
sprite into the window whichever of the two forms it has. -/

namespace Sys2Proof.Proofs

open Sys2Proof Sys2Proof.Machine Sys2Proof.Claims

/-! ## Scrolls and the resolution flag (R165–R167, R170–R174) -/

/-- Settles O45: the scroll engine cell by cell. -/
theorem scdMovesEveryRowDown : Obligations.ScdMovesEveryRowDown := by
  unfold Obligations.ScdMovesEveryRowDown
  refine fun s nib => ⟨_, rfl, onlyDisplay_set_fb s _, fun row col h => ?_, fun row row' col h => ?_⟩
  · rw [Framebuffer.cell_scrollDown, if_pos h]
  · rw [Framebuffer.cell_scrollDown, if_neg (by omega)]
    congr 1
    exact Fin.ext (by simp only; omega)

/-- Settles O46: the scroll engine cell by cell, in each direction. -/
theorem horizontalScrollsMoveFourColumns : Obligations.HorizontalScrollsMoveFourColumns := by
  unfold Obligations.HorizontalScrollsMoveFourColumns
  refine fun s => ⟨⟨_, rfl, onlyDisplay_set_fb s _, fun row col h => ?_, fun row col col' h => ?_⟩,
    ⟨_, rfl, onlyDisplay_set_fb s _, fun row col h => ?_, fun row col col' h => ?_⟩⟩
  · rw [Framebuffer.cell_scrollRight, if_pos h]
  · rw [Framebuffer.cell_scrollRight, if_neg (by omega)]
    congr 1
    exact Fin.ext (by simp only; omega)
  · rw [Framebuffer.cell_scrollLeft, dif_neg (by omega)]
  · rw [Framebuffer.cell_scrollLeft, dif_pos (by omega)]
    congr 1
    exact Fin.ext h.symm

/-- Settles O47: one assignment to the flag. -/
theorem lowAndHighChangeTheFlagOnly : Obligations.LowAndHighChangeTheFlagOnly := by
  unfold Obligations.LowAndHighChangeTheFlagOnly
  exact fun s => ⟨⟨_, rfl, rfl, rfl, rfl, fun _ _ => rfl, fun _ => rfl, fun _ => rfl⟩,
    ⟨_, rfl, rfl, rfl, rfl, fun _ _ => rfl, fun _ => rfl, fun _ => rfl⟩⟩

/-! ## The snapshot (R175) -/

theorem eh_le (s : State) : eh s ≤ 64 := by
  obtain h | h := effHeight_cases s.hires <;> rw [eh_eq_effHeight, h]
  decide

theorem snapshot_rows (s : State) : (snapshot s).2 =
    (s.fb.toList.take (eh s)).map (fun row => (List.range (ew s)).map (fun c => row.getLsbD c)) := rfl

/-- Settles O19: the rows and columns of the snapshot are those of the window. -/
theorem snapshotIsTheEffectiveWindow : Obligations.SnapshotIsTheEffectiveWindow := by
  unfold Obligations.SnapshotIsTheEffectiveWindow
  refine fun s => ⟨rfl, ?rows, fun row hrow => ?columns, fun row col hrow hcol => ?cells⟩
  case rows => simp [snapshot_rows, eh_le]
  case columns =>
    rw [snapshot_rows] at hrow
    obtain ⟨r, -, rfl⟩ := List.mem_map.1 hrow
    simp
  case cells => simp [snapshot_rows, hrow, hcol, Framebuffer.cell]

/-! ## The blit (R162–R164) -/

/-- Does the sprite of `Draw`, small or large, put a lit pixel on the cell? -/
def spriteCovers (nib : Nibble) (hires : Bool) (x0 y0 : Nat) (b : List Byte) : Fin 64 → Fin 128 → Bool :=
  if nib = 0 then largeCovers hires x0 y0 b else rowsCover hires x0 y0 b

/-- The blit inverts the covered cells, keeps the others and reports whether it erased a lit one (R162, R164). -/
def BlitsInto (fb : Framebuffer) (covers : Fin 64 → Fin 128 → Bool) (q : Blit) : Prop :=
  (∀ r c, q.1.cell r c = (fb.cell r c ^^ covers r c)) ∧
  (q.2 = true ↔ ∃ r c, covers r c = true ∧ fb.cell r c = true)

theorem blitSprite_spec {nib : Nibble} {hires : Bool} {x0 y0 : Nat} {b : List Byte} {fb : Framebuffer} {q : Blit}
    (hb : b.length = spriteSize nib) (hq : blitSprite nib hires x0 y0 b fb = .ok q) :
    BlitsInto fb (spriteCovers nib hires x0 y0 b) q := by
  obtain ⟨h0, hsize⟩ | ⟨h0, hsize⟩ := spriteSize_cases nib
  · have hlen : ¬ b.length ≠ Config.bigSpriteBytes := not_not.2 (hb.trans hsize)
    obtain ⟨q', hq', hcell, herase⟩ := drawLargeRows_spec hires x0 16 (by decide) y0 b (hb.trans hsize) fb false
    rw [blitSprite, if_pos h0, drawLarge, if_neg hlen, hq'] at hq
    cases hq
    rw [spriteCovers, if_pos h0]
    exact ⟨hcell, herase.trans (by simp)⟩
  · have hlen : b.length ≤ 15 := by
      have := nib.isLt
      omega
    obtain ⟨hcell, herase⟩ := drawRows_spec hires x0 y0 b (by omega) (fb, false)
    rw [blitSprite, if_neg h0, drawSprite_ok hlen] at hq
    cases hq
    rw [spriteCovers, if_neg h0]
    exact ⟨hcell, herase.trans (by simp)⟩

/-- The cells the sprite at `I` covers when `Draw` finds this state. -/
def drawCovers (x y : RegIndex) (nib : Nibble) (s : State) : Fin 64 → Fin 128 → Bool :=
  spriteCovers nib s.hires (s.reg x).toNat (s.reg y).toNat (s.mem.readMany s.i.toNat (spriteSize nib))

/-- `Draw` inside the bound: the blit, then VF (R169). -/
theorem exec_draw {s : State} (x y : RegIndex) {nib : Nibble} (hb : s.i.toNat + spriteSize nib < 4096) :
    ∃ q, BlitsInto s.fb (drawCovers x y nib s) q ∧
      exec (.draw x y nib) s = .next (({ s with fb := q.1 } : State).setReg vf (flagByte q.2)) := by
  obtain ⟨-, q, hq, he⟩ | ⟨hge, -⟩ := execDraw_cases x y nib s
  · exact ⟨q, blitSprite_spec (Memory.readMany_length _ _ _) hq, he⟩
  · omega

/-! ## The claims' words for it -/

theorem readMany_eq_bytesAtIndex (s : State) (n : Nat) : s.mem.readMany s.i.toNat n = bytesAtIndex s n := by
  apply List.ext_getElem
  · simp [bytesAtIndex, Memory.readMany_length]
  · intro k hk _
    rw [Memory.readMany_getElem]
    simp [bytesAtIndex]

theorem eq_wrapRow_iff {s : State} {n : Nat} {row : Fin 64} : row = wrapRow s.hires n ↔ row.val = n % eh s := by
  rw [Fin.ext_iff, wrapRow_val, eh_eq_effHeight]

theorem eq_wrapCol_iff {s : State} {n : Nat} {col : Fin 128} : col = wrapCol s.hires n ↔ col.val = n % ew s := by
  rw [Fin.ext_iff, wrapCol_val, ew_eq_effWidth]

theorem rowsCover_iff_smallCovers (s : State) (x0 y0 : Nat) (b : List Byte) (row : Fin 64) (col : Fin 128) :
    rowsCover s.hires x0 y0 b row col = true ↔ SmallCovers s x0 y0 b row col := by
  rw [rowsCover_iff, SmallCovers]
  simp only [eq_wrapRow_iff, eq_wrapCol_iff]
  refine exists_congr fun j => exists_congr fun k => ⟨?_, ?_⟩
  · rintro ⟨hj, hk, hbit, hrow, hcol⟩
    exact ⟨hj, hk, by rwa [List.getD_eq_getElem _ _ hj], hrow, hcol⟩
  · rintro ⟨hj, hk, hbit, hrow, hcol⟩
    exact ⟨hj, hk, by rwa [List.getD_eq_getElem _ _ hj] at hbit, hrow, hcol⟩

theorem largeCovers_iff_claim (s : State) (x0 y0 : Nat) {b : List Byte} (hb : b.length = 32) (row : Fin 64)
    (col : Fin 128) : largeCovers s.hires x0 y0 b row col = true ↔ LargeCovers s x0 y0 b row col := by
  rw [largeCovers_iff s.hires x0 16 y0 b hb, LargeCovers]
  simp only [eq_wrapRow_iff, eq_wrapCol_iff]
  refine exists_congr fun j => exists_congr fun k => ⟨?_, ?_⟩
  · rintro ⟨hj, hk, hbit, hrow, hcol⟩
    exact ⟨hj, hk, by rwa [List.getD_eq_getElem _ _ (by omega)], hrow, hcol⟩
  · rintro ⟨hj, hk, hbit, hrow, hcol⟩
    exact ⟨hj, hk, by rwa [List.getD_eq_getElem _ _ (by omega)] at hbit, hrow, hcol⟩

theorem drawCovers_small {s : State} {x y : RegIndex} {nib : Nibble} (hnib : nib.toNat ≠ 0) (row : Fin 64)
    (col : Fin 128) : drawCovers x y nib s row col = true ↔
      SmallCovers s (s.reg x).toNat (s.reg y).toNat (bytesAtIndex s nib.toNat) row col := by
  have h0 : nib ≠ 0 := fun e => hnib (by rw [e]; rfl)
  have hsize : spriteSize nib = nib.toNat := if_neg h0
  rw [drawCovers, spriteCovers, if_neg h0, hsize, readMany_eq_bytesAtIndex, rowsCover_iff_smallCovers]

theorem drawCovers_large {s : State} {x y : RegIndex} (row : Fin 64) (col : Fin 128) :
    drawCovers x y 0 s row col = true ↔
      LargeCovers s (s.reg x).toNat (s.reg y).toNat (bytesAtIndex s 32) row col := by
  have hsize : spriteSize 0 = 32 := rfl
  rw [drawCovers, spriteCovers, if_pos rfl, hsize, readMany_eq_bytesAtIndex, largeCovers_iff_claim]
  rw [← readMany_eq_bytesAtIndex, Memory.readMany_length]

theorem mod_ew_lt (s : State) (n : Nat) : n % ew s < ew s := by
  obtain h | h := effWidth_cases s.hires <;> rw [ew_eq_effWidth, h] <;> omega

theorem mod_eh_lt (s : State) (n : Nat) : n % eh s < eh s := by
  obtain h | h := effHeight_cases s.hires <;> rw [eh_eq_effHeight, h] <;> omega

/-- A wrapped sprite stays in the window (R161). -/
theorem smallCovers_inside {s : State} {x0 y0 : Nat} {b : List Byte} {row : Fin 64} {col : Fin 128}
    (h : SmallCovers s x0 y0 b row col) : row.val < eh s ∧ col.val < ew s := by
  obtain ⟨j, k, -, -, -, hrow, hcol⟩ := h
  exact ⟨hrow ▸ mod_eh_lt s _, hcol ▸ mod_ew_lt s _⟩

theorem largeCovers_inside {s : State} {x0 y0 : Nat} {b : List Byte} {row : Fin 64} {col : Fin 128}
    (h : LargeCovers s x0 y0 b row col) : row.val < eh s ∧ col.val < ew s := by
  obtain ⟨j, k, -, -, -, hrow, hcol⟩ := h
  exact ⟨hrow ▸ mod_eh_lt s _, hcol ▸ mod_ew_lt s _⟩

/-- A blit into the framebuffer, then VF, is what the claims call a drawing. -/
theorem drawnWith_of_blit {claim : Fin 64 → Fin 128 → Prop} {covers : Fin 64 → Fin 128 → Bool} {s : State} {q : Blit}
    (hq : BlitsInto s.fb covers q) (hclaim : ∀ row col, covers row col = true ↔ claim row col)
    (hinside : ∀ row col, claim row col → row.val < eh s ∧ col.val < ew s) :
    DrawnWith claim s (({ s with fb := q.1 } : State).setReg vf (flagByte q.2)) := by
  obtain ⟨hcell, herase⟩ := hq
  have hkept : ∀ row col, ¬ claim row col → q.1.cell row col = s.fb.cell row col := fun row col h => by
    rw [hcell, Bool.eq_false_iff.2 (fun hc => h ((hclaim row col).1 hc)), Bool.xor_false]
  have hvf : ((({ s with fb := q.1 } : State).setReg vf (flagByte q.2)).reg 15).toNat = q.2.toNat :=
    (congrArg BitVec.toNat (State.reg_setReg_self _ vf _)).trans (flagByte_toNat q.2)
  refine ⟨fun row col h => ?inverted, hkept, fun row col h => ?hidden, ?lit, ?dark,
    fun r hr => State.reg_setReg_ne _ _ hr, rfl, fun _ => rfl⟩
  case inverted => exact (hcell row col).trans (by rw [(hclaim row col).2 h, Bool.xor_true])
  case hidden =>
    refine hkept row col fun hc => ?_
    obtain ⟨hrow, hcol⟩ := hinside row col hc
    omega
  case lit =>
    rintro ⟨row, col, hc, hlit⟩
    rw [hvf, herase.2 ⟨row, col, (hclaim row col).2 hc, hlit⟩, Bool.toNat_true]
  case dark =>
    intro hdark
    have hno : q.2 = false := Bool.eq_false_iff.2 fun he => by
      obtain ⟨row, col, hc, hlit⟩ := herase.1 he
      exact nomatch (hdark row col ((hclaim row col).1 hc)).symm.trans hlit
    rw [hvf, hno, Bool.toNat_false]

/-- Settles O42: the blit of the small sprite, in the claims' words. -/
theorem drawXorsTheSmallSprite : Obligations.DrawXorsTheSmallSprite := by
  unfold Obligations.DrawXorsTheSmallSprite
  intro s x y nib hnib hb
  have hsize : spriteSize nib = nib.toNat := if_neg fun e => hnib (by rw [e]; rfl)
  obtain ⟨q, hq, he⟩ := exec_draw x y (hsize ▸ hb : s.i.toNat + spriteSize nib < 4096)
  exact ⟨_, he, drawnWith_of_blit hq (drawCovers_small hnib) fun _ _ => smallCovers_inside⟩

/-- Settles O43: the blit of the large sprite, in the claims' words. -/
theorem drawXorsTheLargeSprite : Obligations.DrawXorsTheLargeSprite := by
  unfold Obligations.DrawXorsTheLargeSprite
  intro s x y hb
  obtain ⟨q, hq, he⟩ := exec_draw x y (nib := 0) hb
  exact ⟨_, he, drawnWith_of_blit hq drawCovers_large fun _ _ => largeCovers_inside⟩

/-! ## Drawing twice -/

/-- A second blit of the same cells undoes the first. -/
theorem blit_twice {fb : Framebuffer} {covers : Fin 64 → Fin 128 → Bool} {p q : Blit} (hp : BlitsInto fb covers p)
    (hq : BlitsInto p.1 covers q) : q.1 = fb := by
  apply Framebuffer.ext_cell
  intro row col
  rw [hq.1, hp.1, Bool.xor_assoc, Bool.xor_self, Bool.xor_false]

/-- After a first blit that erased nothing, the second erases iff the first changed the picture: the cells it lit are
the covered ones. -/
theorem erases_iff_changed {fb : Framebuffer} {covers : Fin 64 → Fin 128 → Bool} {p q : Blit}
    (hp : BlitsInto fb covers p) (hq : BlitsInto p.1 covers q) (hnone : p.2 = false) : q.2 = true ↔ p.1 ≠ fb := by
  have hdark : ∀ row col, covers row col = true → fb.cell row col = false := fun row col hc =>
    Bool.eq_false_iff.2 fun hlit => nomatch hnone.symm.trans (hp.2.2 ⟨row, col, hc, hlit⟩)
  rw [hq.2]
  constructor
  · rintro ⟨row, col, hc, hlit⟩ hsame
    rw [hsame, hdark row col hc] at hlit
    exact nomatch hlit
  · intro hne
    by_contra hno
    refine hne (Framebuffer.ext_cell fun row col => ?_)
    have huncovered : covers row col = false := Bool.eq_false_iff.2 fun hc =>
      hno ⟨row, col, hc, by rw [hp.1, hdark row col hc, hc]; rfl⟩
    rw [hp.1, huncovered, Bool.xor_false]

/-- Under `stop` a `Draw` that goes on was inside the bound. -/
theorem draw_inside_of_next {s t : State} {x y : RegIndex} {nib : Nibble} (hp : s.onFault = .stop)
    (h : exec (.draw x y nib) s = .next t) : s.i.toNat + spriteSize nib < 4096 := by
  by_contra hge
  have hf : failure (.draw x y nib) s = some .addressOutOfRange := if_neg hge
  rw [exec_of_failure hf, raise_stop ((afterFailure_onFault _ s).trans hp)] at h
  exact nomatch h

/-- The drawing itself does not move the sprite, unless VF is a coordinate. -/
theorem drawCovers_after_draw {s : State} {x y : RegIndex} {nib : Nibble} (hx : x ≠ 15) (hy : y ≠ 15)
    (fb : Framebuffer) (b : Byte) :
    drawCovers x y nib (({ s with fb := fb } : State).setReg vf b) = drawCovers x y nib s := by
  have hxr : (({ s with fb := fb } : State).setReg vf b).reg x = s.reg x := State.reg_setReg_ne _ _ hx
  have hyr : (({ s with fb := fb } : State).setReg vf b).reg y = s.reg y := State.reg_setReg_ne _ _ hy
  rw [drawCovers, hxr, hyr]
  rfl

/-- Settles O44: both drawings are blits of the same cells. -/
theorem drawTwiceRestoresThePicture : Obligations.DrawTwiceRestoresThePicture := by
  unfold Obligations.DrawTwiceRestoresThePicture
  intro s t x y nib hx hy hp h
  have hb := draw_inside_of_next hp h
  obtain ⟨p, hblit, he⟩ := exec_draw x y hb
  rw [he] at h
  cases h
  obtain ⟨q, hagain, he'⟩ := exec_draw (s := ({ s with fb := p.1 } : State).setReg vf (flagByte p.2)) x y hb
  rw [drawCovers_after_draw hx hy] at hagain
  refine ⟨_, he', blit_twice hblit hagain, fun h0 => ?_⟩
  have hnone : p.2 = false := by
    rw [show (15 : RegIndex) = vf from rfl, State.reg_setReg_self, flagByte_toNat] at h0
    exact Bool.toNat_eq_zero.1 h0
  rw [show (15 : RegIndex) = vf from rfl, State.reg_setReg_self, flagByte_toNat, Bool.toNat_eq_one]
  exact erases_iff_changed hblit hagain hnone

end Sys2Proof.Proofs
end
